-- ==== Sys2Proof/Word.lean ====
section
/-! DEFINITION. The word types of the Feistel cipher engine: one name for each width of spec 00_scope R6.

The machine never adds, multiplies or compares these words (R10): they are bit vectors because the engine permutes,
shifts and xors them. Position `p` of an `n`-bit vector is bit `n - p` (R8), see `Machine/Bits.lean`. -/

namespace Sys2Proof

/-- A command word: `OPC` in bits 15:8, `ARG` in bits 7:0 (R71). -/
abbrev CmdWord := BitVec 16
/-- One 8-bit field of a command word. -/
abbrev Octet := BitVec 8
/-- The DIN and DOUT ports, and a whole block (`BLOCK_W`, R6, R70). -/
abbrev Block := BitVec 64
/-- The 64-bit key from which all round keys come (`KEY_W`, R6). -/
abbrev RawKey := BitVec 64
/-- One of C and D (`CD_W`, R6). -/
abbrev CdHalf := BitVec 28
/-- C ‖ D, and the output of PC1 (`PC1_W`, R6). -/
abbrev CdPair := BitVec 56
/-- A round key, the output of E, and the KIN port (`RK_W`, R6, R70). -/
abbrev RoundKey := BitVec 48
/-- One of L and R (`HALF_W`, R6). -/
abbrev HalfBlock := BitVec 32
/-- The STATUS register (R25). -/
abbrev StatusWord := BitVec 32

end Sys2Proof
end

