-- ==== Sys2Proof/Syntax.lean ====
section
/-! DEFINITION. The 23 commands of the opcode map (spec 30_encoding R79), one constructor per row of
`spec/opcode_table.json`.

A constructor carries what the command WORD carries. The operands on the DIN and KIN ports are not part of the word
(R84): they stand in the state's `port`. The box selector and the round-key index are held as the 0-based field of the
word (`kk`, `ii` of R72), bounded by their types, so every term of `Instr` is well formed (R73 and R74: every value of
the field names a box, an entry); `WellFormed.lean` checks the 1-based numbers of the text. -/

namespace Sys2Proof

/-- The commands. -/
inductive Instr where
  | nop
  | statusRead
  | permPc1
  | permPc2
  | permE
  | permP
  | permIp
  | permIip
  /-- `SBOX k`, with `kk = k - 1` (R73). -/
  | sbox (kk : Fin 8)
  | slayer
  | ksLoad
  | ksStep
  | ksGen
  /-- `RK_READ i`, with `ii = i - 1` (R74). -/
  | rkRead (ii : Fin 16)
  | cdRead
  | roundF
  | fnStartEnc
  | fnStartDec
  | fnRound
  | fnFinish
  | encBlock
  | decBlock
  | lrRead
  deriving DecidableEq, Repr

end Sys2Proof
end

