-- ==== Sys2Proof/Config.lean ====
section
/-! DEFINITION. What a build of the engine fixes before it runs (spec 00_scope R7, 10_state R20): the tables, and the
latency of a command. The CONTENTS of the default instance stand in `Machine/DesStandard.lean`, the checks that admit an
instance in `WellFormed.lean`. -/

namespace Sys2Proof

/-- A `TABLES` instance, as the spec prints one: each table a list in its printed order, entries 1-based positions for
the permutation tables (R101), rotation amounts for SHIFTS, values 0..15 row after row for the S-boxes (R131). E and
SHIFTS are fixed by the source; they stand here because R102 checks them (`e_fixed`, `shifts_fixed`). IIP is not here:
it is computed from IP (R104). -/
structure Tables where
  pc1 : List Nat
  pc2 : List Nat
  e : List Nat
  p32 : List Nat
  ip : List Nat
  shifts : List Nat
  /-- `S_1` to `S_8`, in order. -/
  sboxes : List (List Nat)
  deriving DecidableEq, Repr

/-- The part of `LAT(op)` above one cycle. The spec leaves it open and gives it no value (R7, R296, 92 D17), so it has
no body here. -/
opaque Config.latencyBeyondOne : Instr → Nat

/-- `LAT(op)`: the cycles from issue to completion, at least 1 (R296). No rule depends on it, so nothing in the model
reads it (log 11). -/
def Config.latency (op : Instr) : Nat := Config.latencyBeyondOne op + 1

end Sys2Proof
end

