-- ==== Sys2Proof/Machine/Roms.lean ====
section
/-! DEFINITION. The tables the source itself fixes: E (spec 40 R103), the shift schedule (00_scope R6), and IIP as it is
computed from IP (40 R104). -/

namespace Sys2Proof

/-- Table E as R103 prints it, one output group a row. -/
def expansionTable : List Nat :=
  [32,  1,  2,  3,  4,  5] ++
  [ 4,  5,  6,  7,  8,  9] ++
  [ 8,  9, 10, 11, 12, 13] ++
  [12, 13, 14, 15, 16, 17] ++
  [16, 17, 18, 19, 20, 21] ++
  [20, 21, 22, 23, 24, 25] ++
  [24, 25, 26, 27, 28, 29] ++
  [28, 29, 30, 31, 32,  1]

/-- `SHIFTS[1..16]` (R6): steps 1, 2, 9 and 16 rotate by 1, all others by 2. -/
def shiftSchedule : List Nat := [1, 1, 2, 2, 2, 2, 2, 2, 1, 2, 2, 2, 2, 2, 2, 1]

/-- The index-level inverse of a table `t` of `1..len`: entry `p` is the `q` with `t[q] = p` (R104: `IIP[IP[q]] = q`). -/
def inverseTable (len : Nat) (t : List Nat) : List Nat :=
  (List.range len).map fun p => t.idxOf (p + 1) + 1

/-- IIP, computed from IP (R104). -/
def Tables.iip (T : Tables) : List Nat := inverseTable 64 T.ip

end Sys2Proof
end

