-- ==== Sys2Proof/WellFormed.lean ====
section
/-! DEFINITION. What is well formed: a `TABLES` instance (the seven named checks of spec 40 R102), and the 1-based box
number and round-key index of a command's text (30_encoding R73, R74, R85).

A term of `Instr` needs no further check: its fields are bounded by their types (see `Syntax.lean`). -/

namespace Sys2Proof

/-- A table of `len` entries, each in `1..max`, pairwise distinct: the shape R102 asks of PC1, PC2, P32 and IP. -/
def distinctPositions (len max : Nat) (t : List Nat) : Bool :=
  t.length == len && t.all (fun p => decide (1 ≤ p) && decide (p ≤ max)) && decide t.Nodup

/-- R102 `pc1_shape`. -/
def Tables.pc1Shape (T : Tables) : Bool := distinctPositions 56 64 T.pc1
/-- R102 `pc2_shape`. -/
def Tables.pc2Shape (T : Tables) : Bool := distinctPositions 48 56 T.pc2
/-- R102 `p32_shape`. -/
def Tables.p32Shape (T : Tables) : Bool := distinctPositions 32 32 T.p32
/-- R102 `ip_shape`: IP is a bijection of `1..64`, so IIP exists. -/
def Tables.ipShape (T : Tables) : Bool := distinctPositions 64 64 T.ip
/-- R102 `e_fixed`. -/
def Tables.eFixed (T : Tables) : Bool := T.e == expansionTable
/-- R102 `shifts_fixed`. -/
def Tables.shiftsFixed (T : Tables) : Bool := T.shifts == shiftSchedule
/-- R102 `sbox_shape`: eight boxes (R130), each of 64 entries in `0..15`. -/
def Tables.sboxShape (T : Tables) : Bool :=
  T.sboxes.length == 8 && T.sboxes.all fun b => b.length == 64 && b.all fun v => decide (v < 16)

/-- R102: the instance passes every named check. -/
def Tables.admitted (T : Tables) : Bool :=
  T.pc1Shape && T.pc2Shape && T.p32Shape && T.ipShape && T.eFixed && T.shiftsFixed && T.sboxShape

/-- An admitted `TABLES` instance. R102: "A model refuses an instance that fails any of them: it gives such an instance
no meaning." The machine takes its tables from this type, so a machine over any other instance cannot be built. -/
structure AdmittedTables extends Tables where
  ok : toTables.admitted = true
  deriving DecidableEq, Repr

/-- The box selector field of box number `k`: `none` unless `k` is in 1..8 (R73, R85). -/
def boxSelector? (k : Nat) : Option (Fin 8) :=
  if h : 1 ≤ k ∧ k ≤ 8 then some ⟨k - 1, by omega⟩ else none

/-- The index field of round key `i`: `none` unless `i` is in 1..16 (R74, R85; R28: index 0 and indices above 16 do not
exist). -/
def rkIndex? (i : Nat) : Option (Fin 16) :=
  if h : 1 ≤ i ∧ i ≤ 16 then some ⟨i - 1, by omega⟩ else none

end Sys2Proof
end

