-- ==== Sys2Proof/Decode.lean ====
section
/-! DEFINITION. Decoding and encoding of command words (spec 30_encoding R71 to R74, R79 to R82).

Decoding is total on the 65536 command words: each one selects one command or is rejected by exactly one of
`ILLEGAL_OPCODE` and `RESERVED_ARG` (R82). The rejection is turned into the engine's fault in `Machine/Issue.lean`. -/

namespace Sys2Proof

/-- Why a word selects no command: its `OPC` is unassigned (R80), or a reserved `ARG` bit is set (R81). -/
inductive DecodeError where
  | illegalOpcode
  | reservedArg
  deriving DecidableEq, Repr

/-- `CMD[15:8]` (R71). -/
def opcField (w : CmdWord) : Octet := w.extractLsb' 8 8

/-- `CMD[7:0]` (R71). -/
def argField (w : CmdWord) : Octet := w.extractLsb' 0 8

/-- The box selector `kk = ARG[2:0]` of format K (R72, R73). -/
def kkOf (arg : Octet) : Fin 8 := (arg.extractLsb' 0 3).toFin

/-- The index field `ii = ARG[3:0]` of format I (R72, R74). -/
def iiOf (arg : Octet) : Fin 16 := (arg.extractLsb' 0 4).toFin

/-- The command an `OPC` is assigned to (R79), its argument read from `ARG`. `none`: unassigned (R80). -/
def assigned (opc arg : Octet) : Option Instr :=
  match opc with
  | 0x00#8 => some .nop
  | 0x01#8 => some .statusRead
  | 0x10#8 => some .permPc1
  | 0x11#8 => some .permPc2
  | 0x12#8 => some .permE
  | 0x13#8 => some .permP
  | 0x14#8 => some .permIp
  | 0x15#8 => some .permIip
  | 0x20#8 => some (.sbox (kkOf arg))
  | 0x21#8 => some .slayer
  | 0x30#8 => some .ksLoad
  | 0x31#8 => some .ksStep
  | 0x32#8 => some .ksGen
  | 0x33#8 => some (.rkRead (iiOf arg))
  | 0x34#8 => some .cdRead
  | 0x40#8 => some .roundF
  | 0x50#8 => some .fnStartEnc
  | 0x51#8 => some .fnStartDec
  | 0x52#8 => some .fnRound
  | 0x53#8 => some .fnFinish
  | 0x54#8 => some .encBlock
  | 0x55#8 => some .decBlock
  | 0x56#8 => some .lrRead
  | _ => none

/-- The `ARG` bits that must be 0 (R72, R81): all of them in format N, `ARG[7:3]` in K, `ARG[7:4]` in I. -/
def reservedArgBits : Instr → Octet
  | .sbox _ => 0xF8#8
  | .rkRead _ => 0xF0#8
  | _ => 0xFF#8

/-- The command a word selects (R79), or why it selects none; the opcode is checked before the argument (R83 steps 2
and 3). -/
def decode (w : CmdWord) : Except DecodeError Instr :=
  match assigned (opcField w) (argField w) with
  | none => .error .illegalOpcode
  | some i => if argField w &&& reservedArgBits i = 0#8 then .ok i else .error .reservedArg

/-- The operation code of a command (R79). -/
def opcodeOf : Instr → Octet
  | .nop => 0x00#8
  | .statusRead => 0x01#8
  | .permPc1 => 0x10#8
  | .permPc2 => 0x11#8
  | .permE => 0x12#8
  | .permP => 0x13#8
  | .permIp => 0x14#8
  | .permIip => 0x15#8
  | .sbox _ => 0x20#8
  | .slayer => 0x21#8
  | .ksLoad => 0x30#8
  | .ksStep => 0x31#8
  | .ksGen => 0x32#8
  | .rkRead _ => 0x33#8
  | .cdRead => 0x34#8
  | .roundF => 0x40#8
  | .fnStartEnc => 0x50#8
  | .fnStartDec => 0x51#8
  | .fnRound => 0x52#8
  | .fnFinish => 0x53#8
  | .encBlock => 0x54#8
  | .decBlock => 0x55#8
  | .lrRead => 0x56#8

/-- The argument field of a command (R72): `kk` for SBOX, `ii` for RK_READ, 0 for every other. -/
def argOf : Instr → Octet
  | .sbox kk => BitVec.ofNat 8 kk.val
  | .rkRead ii => BitVec.ofNat 8 ii.val
  | _ => 0#8

/-- The word of a command: `OPC` in bits 15:8, `ARG` in bits 7:0 (R71). -/
def encode (i : Instr) : CmdWord := opcodeOf i ++ argOf i

/-- The rows of the opcode map as R79 prints them, (match, mask): a word selects a command if and only if
`(CMD & mask) = match` for its row. -/
def opcodeMap : List (CmdWord × CmdWord) :=
  [(0x0000, 0xFFFF), (0x0100, 0xFFFF)] ++
  [(0x1000, 0xFFFF), (0x1100, 0xFFFF), (0x1200, 0xFFFF), (0x1300, 0xFFFF), (0x1400, 0xFFFF), (0x1500, 0xFFFF)] ++
  [(0x2000, 0xFFF8), (0x2100, 0xFFFF)] ++
  [(0x3000, 0xFFFF), (0x3100, 0xFFFF), (0x3200, 0xFFFF), (0x3300, 0xFFF0), (0x3400, 0xFFFF)] ++
  [(0x4000, 0xFFFF)] ++
  [(0x5000, 0xFFFF), (0x5100, 0xFFFF), (0x5200, 0xFFFF), (0x5300, 0xFFFF), (0x5400, 0xFFFF), (0x5500, 0xFFFF),
   (0x5600, 0xFFFF)]

/-- What the decoder reads from a table row's bits, numbered as `spec/opcode_table.json` numbers them. A command word is
one 16-bit word (R71, R84), so a number with a bit above 15 is no command word. -/
def decodeTableWord (nbits w : Nat) : Option Instr :=
  let bits := w % 2 ^ nbits
  if bits < 2 ^ 16 then (decode (BitVec.ofNat 16 bits)).toOption else none

end Sys2Proof
end

