-- ==== Sys2Proof/Machine/DesStandard.lean ====
section
/-! DEFINITION. `DES_STANDARD`, the default `TABLES` instance (spec 00_scope R7, 40 R105 to R108, 41 R137 to R144). The
spec marks its contents "from general knowledge, not in source" (log 1). Each table reads as the spec prints it. -/

namespace Sys2Proof

/-- R105. Entries 1..28 form C, 29..56 form D. -/
def desPc1 : List Nat :=
  [57, 49, 41, 33, 25, 17,  9] ++
  [ 1, 58, 50, 42, 34, 26, 18] ++
  [10,  2, 59, 51, 43, 35, 27] ++
  [19, 11,  3, 60, 52, 44, 36] ++
  [63, 55, 47, 39, 31, 23, 15] ++
  [ 7, 62, 54, 46, 38, 30, 22] ++
  [14,  6, 61, 53, 45, 37, 29] ++
  [21, 13,  5, 28, 20, 12,  4]

/-- R106. -/
def desPc2 : List Nat :=
  [14, 17, 11, 24,  1,  5] ++
  [ 3, 28, 15,  6, 21, 10] ++
  [23, 19, 12,  4, 26,  8] ++
  [16,  7, 27, 20, 13,  2] ++
  [41, 52, 31, 37, 47, 55] ++
  [30, 40, 51, 45, 33, 48] ++
  [44, 49, 39, 56, 34, 53] ++
  [46, 42, 50, 36, 29, 32]

/-- R107. -/
def desP32 : List Nat :=
  [16,  7, 20, 21, 29, 12, 28, 17] ++
  [ 1, 15, 23, 26,  5, 18, 31, 10] ++
  [ 2,  8, 24, 14, 32, 27,  3,  9] ++
  [19, 13, 30,  6, 22, 11,  4, 25]

/-- R108. -/
def desIp : List Nat :=
  [58, 50, 42, 34, 26, 18, 10,  2] ++
  [60, 52, 44, 36, 28, 20, 12,  4] ++
  [62, 54, 46, 38, 30, 22, 14,  6] ++
  [64, 56, 48, 40, 32, 24, 16,  8] ++
  [57, 49, 41, 33, 25, 17,  9,  1] ++
  [59, 51, 43, 35, 27, 19, 11,  3] ++
  [61, 53, 45, 37, 29, 21, 13,  5] ++
  [63, 55, 47, 39, 31, 23, 15,  7]

/-- R137. Rows 0 to 3, columns 0 to 15 (R131). -/
def desS1 : List Nat :=
  [14,  4, 13,  1,  2, 15, 11,  8,  3, 10,  6, 12,  5,  9,  0,  7] ++
  [ 0, 15,  7,  4, 14,  2, 13,  1, 10,  6, 12, 11,  9,  5,  3,  8] ++
  [ 4,  1, 14,  8, 13,  6,  2, 11, 15, 12,  9,  7,  3, 10,  5,  0] ++
  [15, 12,  8,  2,  4,  9,  1,  7,  5, 11,  3, 14, 10,  0,  6, 13]

/-- R138. Rows 0 to 3, columns 0 to 15 (R131). -/
def desS2 : List Nat :=
  [15,  1,  8, 14,  6, 11,  3,  4,  9,  7,  2, 13, 12,  0,  5, 10] ++
  [ 3, 13,  4,  7, 15,  2,  8, 14, 12,  0,  1, 10,  6,  9, 11,  5] ++
  [ 0, 14,  7, 11, 10,  4, 13,  1,  5,  8, 12,  6,  9,  3,  2, 15] ++
  [13,  8, 10,  1,  3, 15,  4,  2, 11,  6,  7, 12,  0,  5, 14,  9]

/-- R139. Rows 0 to 3, columns 0 to 15 (R131). -/
def desS3 : List Nat :=
  [10,  0,  9, 14,  6,  3, 15,  5,  1, 13, 12,  7, 11,  4,  2,  8] ++
  [13,  7,  0,  9,  3,  4,  6, 10,  2,  8,  5, 14, 12, 11, 15,  1] ++
  [13,  6,  4,  9,  8, 15,  3,  0, 11,  1,  2, 12,  5, 10, 14,  7] ++
  [ 1, 10, 13,  0,  6,  9,  8,  7,  4, 15, 14,  3, 11,  5,  2, 12]

/-- R140. Rows 0 to 3, columns 0 to 15 (R131). -/
def desS4 : List Nat :=
  [ 7, 13, 14,  3,  0,  6,  9, 10,  1,  2,  8,  5, 11, 12,  4, 15] ++
  [13,  8, 11,  5,  6, 15,  0,  3,  4,  7,  2, 12,  1, 10, 14,  9] ++
  [10,  6,  9,  0, 12, 11,  7, 13, 15,  1,  3, 14,  5,  2,  8,  4] ++
  [ 3, 15,  0,  6, 10,  1, 13,  8,  9,  4,  5, 11, 12,  7,  2, 14]

/-- R141. Rows 0 to 3, columns 0 to 15 (R131). -/
def desS5 : List Nat :=
  [ 2, 12,  4,  1,  7, 10, 11,  6,  8,  5,  3, 15, 13,  0, 14,  9] ++
  [14, 11,  2, 12,  4,  7, 13,  1,  5,  0, 15, 10,  3,  9,  8,  6] ++
  [ 4,  2,  1, 11, 10, 13,  7,  8, 15,  9, 12,  5,  6,  3,  0, 14] ++
  [11,  8, 12,  7,  1, 14,  2, 13,  6, 15,  0,  9, 10,  4,  5,  3]

/-- R142. Rows 0 to 3, columns 0 to 15 (R131). -/
def desS6 : List Nat :=
  [12,  1, 10, 15,  9,  2,  6,  8,  0, 13,  3,  4, 14,  7,  5, 11] ++
  [10, 15,  4,  2,  7, 12,  9,  5,  6,  1, 13, 14,  0, 11,  3,  8] ++
  [ 9, 14, 15,  5,  2,  8, 12,  3,  7,  0,  4, 10,  1, 13, 11,  6] ++
  [ 4,  3,  2, 12,  9,  5, 15, 10, 11, 14,  1,  7,  6,  0,  8, 13]

/-- R143. Rows 0 to 3, columns 0 to 15 (R131). -/
def desS7 : List Nat :=
  [ 4, 11,  2, 14, 15,  0,  8, 13,  3, 12,  9,  7,  5, 10,  6,  1] ++
  [13,  0, 11,  7,  4,  9,  1, 10, 14,  3,  5, 12,  2, 15,  8,  6] ++
  [ 1,  4, 11, 13, 12,  3,  7, 14, 10, 15,  6,  8,  0,  5,  9,  2] ++
  [ 6, 11, 13,  8,  1,  4, 10,  7,  9,  5,  0, 15, 14,  2,  3, 12]

/-- R144. Rows 0 to 3, columns 0 to 15 (R131). -/
def desS8 : List Nat :=
  [13,  2,  8,  4,  6, 15, 11,  1, 10,  9,  3, 14,  5,  0, 12,  7] ++
  [ 1, 15, 13,  8, 10,  3,  7,  4, 12,  5,  6, 11,  0, 14,  9,  2] ++
  [ 7, 11,  4,  1,  9, 12, 14,  2,  0,  6, 10, 13, 15,  3,  5,  8] ++
  [ 2,  1, 14,  7,  4, 10,  8, 13, 15, 12,  9,  0,  3,  5,  6, 11]

/-- The `DES_STANDARD` instance, unchecked. -/
def desTables : Tables where
  pc1 := desPc1
  pc2 := desPc2
  e := expansionTable
  p32 := desP32
  ip := desIp
  shifts := shiftSchedule
  sboxes := [desS1, desS2, desS3, desS4, desS5, desS6, desS7, desS8]

/-- `DES_STANDARD` passes every check of R102. -/
theorem desTables_admitted : desTables.admitted = true := by decide +kernel

/-- `DES_STANDARD`, the default instance (R7). -/
def desStandard : AdmittedTables := { toTables := desTables, ok := desTables_admitted }

end Sys2Proof
end

