-- ==== Sys2Proof/Machine/Bits.lean ====
section
/-! DEFINITION. Bit positions, the permutation primitive and the rotation (spec 00_scope R8 to R10, 40 R101, 42 R151). -/

namespace Sys2Proof.Machine

/-- `pos(v, p)`: the bit at the 1-based position `p`, position 1 the most significant (R8): bit index `n - p`. -/
def pos {n : Nat} (v : BitVec n) (p : Nat) : Bool := v.getMsbD (p - 1)

/-- `Permute(T, v)` of output width `len = L` (R101): `pos(out, p) = pos(v, T[p])`. -/
def permute {n : Nat} (len : Nat) (table : List Nat) (v : BitVec n) : BitVec len :=
  (BitVec.ofBoolListBE (table.map (pos v))).setWidth len

/-- The 16 values `f 0` to `f 15` side by side. -/
def sixteen {α : Type} (f : Fin 16 → α) : Vector α 16 :=
  #v[f 0, f 1, f 2, f 3, f 4, f 5, f 6, f 7, f 8, f 9, f 10, f 11, f 12, f 13, f 14, f 15]

/-- `rotl(v, s)` of a 28-bit vector, circular (R151, second form). -/
def rotl (v : CdHalf) (s : Nat) : CdHalf := (v <<< s) ||| (v >>> (28 - s))

/-- `v[55:28]` of a 56-bit vector: positions 1..28 (R152). -/
def upper28 (v : CdPair) : CdHalf := v.extractLsb' 28 28
/-- `v[27:0]` of a 56-bit vector: positions 29..56 (R152). -/
def lower28 (v : CdPair) : CdHalf := v.extractLsb' 0 28
/-- `v[63:32]` of a block: positions 1..32 (R200). -/
def upper32 (v : Block) : HalfBlock := v.extractLsb' 32 32
/-- `v[31:0]` of a block: positions 33..64 (R200). -/
def lower32 (v : Block) : HalfBlock := v.extractLsb' 0 32

end Sys2Proof.Machine
end

