-- ==== Sys2Proof/Machine/State.lean ====
section
/-! DEFINITION. The architectural state of the engine (spec 10_state), the host's side of the interface as data, the
state after reset, and the model's own two ways to stop.

A data register that holds nothing is `none`: that is the spec's own reset value (10_state R22, R31, R32), not a value
the model lacks. -/

namespace Sys2Proof.Machine

/-- The eight fault causes (60 R240). Taking one is a NEXT state, see `State.enterFault`. -/
inductive Cause where
  | illegalOpcode
  | reservedArg
  | invalidLength
  | ksNotLoaded
  | ksOverrun
  | ksIncomplete
  | rkUnwritten
  | blkSequence
  deriving DecidableEq, Repr

/-- `BLK_DIR`: the direction of the block in flight (R25). -/
inductive Dir where
  | encrypt
  | decrypt
  deriving DecidableEq, Repr

/-- The fields of the STATUS register (R25). The counters are bounded naturals 0..16 and `CAUSE` is a named cause or
none, as R25 allows ("A CAUSE value above 8, or a counter value above 16, cannot occur"; log 8). The word the host reads
is `Status.word` in `Flags.lean`. -/
structure Status where
  /-- `ERR`, sticky: the engine is halted. -/
  err : Bool
  /-- `CAUSE`; `none` is code 0. -/
  cause : Option Cause
  /-- `KS_LOADED`. -/
  ksLoaded : Bool
  /-- `KS_CNT`, 0..16. -/
  ksCnt : Fin 17
  /-- `BLK_ACTIVE`. -/
  blkActive : Bool
  /-- `BLK_DIR`. -/
  blkDir : Dir
  /-- `BLK_CNT`, 0..16. -/
  blkCnt : Fin 17
  deriving DecidableEq, Repr

/-- Every STATUS field 0 (R31). -/
def Status.zero : Status :=
  { err := false, cause := none, ksLoaded := false, ksCnt := 0, blkActive := false, blkDir := .encrypt, blkCnt := 0 }

/-- One transaction: the values the host presents on the input ports, stable until completion (30_encoding R70; 70
R294). -/
structure Transaction where
  cmd : CmdWord
  din : Block
  kin : RoundKey
  deriving DecidableEq, Repr

/-- One thing the host does to the engine (R70): issue a transaction, or assert reset, between transactions or while
one is in progress (R280). -/
inductive HostEvent where
  | command (t : Transaction)
  | reset (inProgress : Option Transaction)
  deriving DecidableEq, Repr

/-- The engine, and what its host is about to do.

The spec's registers are `c` to `status`. `tables` is configuration (R20): it stands here so that a claim can speak of
every admitted instance, and no step changes it (log 1). `port` and `inbox` are the host's side (logs 2 and 3). -/
structure State where
  /-- The `TABLES` instance the engine is built with (R7, R20). -/
  tables : AdmittedTables
  /-- `C` (R22). -/
  c : Option CdHalf
  /-- `D` (R22). -/
  d : Option CdHalf
  /-- `RK[1..16]` (R22, R28); entry `i` stands at `i - 1`. -/
  rk : Vector (Option RoundKey) 16
  /-- `L` (R22). -/
  l : Option HalfBlock
  /-- `R` (R22). -/
  r : Option HalfBlock
  /-- `DOUT` (R22, R70). -/
  dout : Option Block
  /-- `STATUS` (R25). -/
  status : Status
  /-- The values on CMD, DIN and KIN as last presented in a transaction the engine took. -/
  port : Transaction
  /-- What the host does next, oldest first. -/
  inbox : List HostEvent
  deriving DecidableEq, Repr

/-- The model's stops. None is a fault of the engine: the engine's eight faults are next states (60 R242). -/
inductive Fault where
  /-- A command whose checks passed would read a register that holds `none`. Raised by `withValue` (every meaning that
  reads C, D, RK, L or R). Only a state that breaks R29 gets here; R23 says such a read is never a value. Safe: no
  claim about a next state is about it (log 6). -/
  | readOfNone
  deriving DecidableEq, Repr

/-- An instruction the model gives no meaning. -/
inductive Refusal where
  /-- Raised by an arm of `exec` that has no meaning yet; no arm of this model does. Safe. -/
  | notModelled (mnemonic : String)
  deriving DecidableEq, Repr

/-- The state after reset (R31, R280): every data register `none`, every STATUS field 0, the default tables (R7). The
host's side, which the spec gives no reset value, is at rest: ports at 0, nothing to do (logs 2 and 3). -/
def State.reset : State where
  tables := desStandard
  c := none
  d := none
  rk := Vector.replicate 16 none
  l := none
  r := none
  dout := none
  status := Status.zero
  port := { cmd := 0, din := 0, kin := 0 }
  inbox := []

end Sys2Proof.Machine
end

