-- ==== Sys2Proof/Machine/Flags.lean ====
section
/-! DEFINITION. The STATUS word and the two sequencer counters (spec 10_state R24, R25; 60 R240). The engine has no
arithmetic flags (R27). -/

namespace Sys2Proof.Machine

/-- The cause code of R240. -/
def Cause.code : Cause → BitVec 4
  | .illegalOpcode => 1
  | .reservedArg => 2
  | .invalidLength => 3
  | .ksNotLoaded => 4
  | .ksOverrun => 5
  | .ksIncomplete => 6
  | .rkUnwritten => 7
  | .blkSequence => 8

/-- `STATUS.CAUSE`: 0 while no fault is recorded (R25, R240). -/
def causeField : Option Cause → BitVec 4
  | none => 0
  | some k => k.code

/-- `STATUS.BLK_DIR`: 0 encrypt, 1 decrypt (R25). -/
def Dir.bit : Dir → Bool
  | .encrypt => false
  | .decrypt => true

/-- The STATUS register as the host reads it (R25): bits 31:18 reserved 0, BLK_CNT 17:13, BLK_DIR 12, BLK_ACTIVE 11,
KS_CNT 10:6, KS_LOADED 5, CAUSE 4:1, ERR 0. -/
def Status.word (s : Status) : StatusWord :=
  0#14 ++ BitVec.ofNat 5 s.blkCnt.val ++ BitVec.ofBool s.blkDir.bit ++ BitVec.ofBool s.blkActive ++
    BitVec.ofNat 5 s.ksCnt.val ++ BitVec.ofBool s.ksLoaded ++ causeField s.cause ++ BitVec.ofBool s.err

/-- The 0-based number of the step or round a counter at `n` takes next; `none` at 16, past which no counter goes
(R24). The counter after it is `i.succ`. -/
def nextIndex? (n : Fin 17) : Option (Fin 16) :=
  if h : n.val < 16 then some ⟨n.val, h⟩ else none

/-- The round key used by a round when `BLK_CNT = n` (R204), as the 0-based index of `RK`: `BLK_CNT + 1` counted from 1
in the encrypt direction, `16 - BLK_CNT` in the decrypt direction. -/
def roundKeyIndex (dir : Dir) (n : Fin 16) : Fin 16 :=
  match dir with
  | .encrypt => n
  | .decrypt => n.rev

end Sys2Proof.Machine
end

