-- ==== Sys2Proof/Machine/Ops.lean ====
section
/-! DEFINITION. The named operations every meaning is made of: register writes, taking a fault (spec 60 R242), the halt
(R243), reset (70 R280), and the reads of registers that may hold `none` (10_state R23).

There is no return from a fault beside the entry: R244 says that only reset leaves the halted state. -/

namespace Sys2Proof.Machine

/-- What a meaning answers. -/
abbrev Result := Host.Outcome State Fault Refusal

/-- `DOUT <- v` (R11). -/
def State.setDout (s : State) (v : Block) : State := { s with dout := some v }

/-- `C <- c; D <- d`. -/
def State.setCd (s : State) (c d : CdHalf) : State := { s with c := some c, d := some d }

/-- `RK[i + 1] <- k` (R28). -/
def State.setRk (s : State) (i : Fin 16) (k : RoundKey) : State := { s with rk := s.rk.set i.val (some k) }

/-- The whole round-key store at once (R153, R156). -/
def State.setRkStore (s : State) (rk : Vector (Option RoundKey) 16) : State := { s with rk := rk }

/-- `L <- l; R <- r`. -/
def State.setLr (s : State) (l r : HalfBlock) : State := { s with l := some l, r := some r }

/-- `KS_LOADED <- 1; KS_CNT <- n` (the key-schedule fields of STATUS). -/
def State.setKs (s : State) (n : Fin 17) : State :=
  { s with status := { s.status with ksLoaded := true, ksCnt := n } }

/-- `BLK_ACTIVE`, `BLK_DIR` and `BLK_CNT` (the block fields of STATUS). -/
def State.setBlk (s : State) (active : Bool) (dir : Dir) (n : Fin 17) : State :=
  { s with status := { s.status with blkActive := active, blkDir := dir, blkCnt := n } }

/-- Fault entry (R242): ERR set, CAUSE recorded, DOUT holds `none`; every other register keeps its value. -/
def State.enterFault (s : State) (k : Cause) : State :=
  { s with dout := none, status := { s.status with err := true, cause := some k } }

/-- Reset (R280): every data register `none`, every STATUS field 0, the tables unchanged. -/
def State.resetRegisters (s : State) : State :=
  { s with c := none, d := none, rk := Vector.replicate 16 none, l := none, r := none, dout := none,
           status := Status.zero }

/-- The host presents `t` on the ports, with `rest` still to come. -/
def State.present (s : State) (t : Transaction) (rest : List HostEvent) : State :=
  { s with port := t, inbox := rest }

/-- The engine is stuck for the word `w` (R243; 92 D10, 93 U8): it is halted, and `w` is neither NOP's nor STATUS_READ's.
It makes no step for such a word, see `State.pending`. -/
def State.stuckOn (s : State) (w : CmdWord) : Bool := s.status.err && (w != 0x0000 && w != 0x0100)

/-- The effect of a command on a halted engine: none, nothing changes (R243, R83 step 1). NOP and STATUS_READ do not use
this. -/
def unlessHalted (s : State) (k : Result) : Result := if s.status.err then .next s else k

/-- `raise Fault(cause)` (R11, R242). -/
def raise (k : Cause) (s : State) : Result := .next (s.enterFault k)

/-- One check line of a command's rule: raise the fault if the condition holds, else go on (R11, R241). -/
def failIf (bad : Bool) (k : Cause) (s : State) (go : Result) : Result := if bad then raise k s else go

/-- Read a register: go on with its value. The command's checks exclude `none` in every state that meets R29; in another
state the model stops (R23, log 6). -/
def withValue {α : Type} (r : Option α) (go : α → Result) : Result :=
  match r with
  | some v => go v
  | none => .fault .readOfNone

/-- The values of all registers of a list, if each holds one. -/
def allSome {α : Type} : List (Option α) → Option (List α)
  | [] => some []
  | none :: _ => none
  | some a :: rest => (allSome rest).map (a :: ·)

/-- `RK[1..16]` as a list of values, if every entry holds one (R200, R201 read all of them). -/
def roundKeys? (s : State) : Option (List RoundKey) := allSome s.rk.toList

end Sys2Proof.Machine
end

