-- ==== Sys2Proof/Machine/Operands.lean ====
section
/-! DEFINITION. The ports (spec 30_encoding R70, R75 to R78): the DIN field of a command with its width check, the KIN
operand, the result in DOUT, and what the host sees on the output ports. -/

namespace Sys2Proof.Machine

/-- R76: a set bit above an `n`-bit field of DIN, `n < 64`. -/
def dinTooLong (n : Nat) (din : Block) : Bool := decide (n < 64) && din >>> n != 0

/-- Read an `n`-bit vector from `DIN[n-1:0]` (R75), or raise `INVALID_LENGTH` (R76). -/
def withDin (n : Nat) (s : State) (go : BitVec n → Result) : Result :=
  failIf (dinTooLong n s.port.din) .invalidLength s (go (s.port.din.setWidth n))

/-- The KIN operand, all 48 bits of the port (R75); only ROUND_F reads it (R77). -/
def State.kin (s : State) : RoundKey := s.port.kin

/-- Complete with a result: `DOUT <- zext_64(v)` (R75). -/
def complete {m : Nat} (v : BitVec m) (s : State) : Result := .next (s.setDout (v.setWidth 64))

/-- The output ports (R70). -/
structure OutputPorts where
  /-- The DOUT port: no value while it is not valid (70 R295; log 14). -/
  dout : Option Block
  /-- The valid indication, 0 while `DOUT = none`. -/
  doutValid : Bool
  /-- The STATUS port. -/
  status : StatusWord
  deriving DecidableEq, Repr

/-- What the host sees on the output ports between transactions (R70). -/
def State.outputs (s : State) : OutputPorts :=
  { dout := s.dout, doutValid := s.dout.isSome, status := s.status.word }

end Sys2Proof.Machine
end

