-- ==== Sys2Proof/Machine/Control.lean ====
section
/-! DEFINITION. The control commands NOP and STATUS_READ (spec 45 R230, R231). Both execute while the engine is halted
(60 R243). -/

namespace Sys2Proof.Machine

/-- NOP (R230): no effect, DOUT included. -/
def execNop (s : State) : Result := .next s

/-- STATUS_READ (R231): `DOUT <- zext_64(STATUS)`. -/
def execStatusRead (s : State) : Result := complete s.status.word s

end Sys2Proof.Machine
end

