-- ==== Sys2Proof/Machine/Sbox.lean ====
section
/-! DEFINITION. `sbox_rom_8x`: the S-box lookup, the S-layer and their commands (spec 41 R130 to R136). -/

namespace Sys2Proof.Machine

/-- The linear index `row*16 + column` a group selects (R131, R132): `row = 2*g[5] + g[0]`, `column = uint(g[4:1])`. -/
def sboxIndex (g : BitVec 6) : Nat :=
  (2 * (g.getLsbD 5).toNat + (g.getLsbD 0).toNat) * 16 + (g.extractLsb' 1 4).toNat

/-- `RomRead(S_{kk+1}, j)` (R51, R131). -/
def sboxEntry (T : AdmittedTables) (kk j : Nat) : Nat := (T.sboxes.getD kk []).getD j 0

/-- `SBoxLookup(kk + 1, g)` (R132): the entry's value, most significant bit at position 1. -/
def sboxLookup (T : AdmittedTables) (kk : Nat) (g : BitVec 6) : BitVec 4 :=
  BitVec.ofNat 4 (sboxEntry T kk (sboxIndex g))

/-- `grp_{kk+1}(x) = x[47 - 6*kk : 42 - 6*kk]` (R134). -/
def sboxGroup (x : RoundKey) (kk : Nat) : BitVec 6 := x.extractLsb' (42 - 6 * kk) 6

/-- `SLayer(x)` (R134): box `k` on group `k`, the outputs side by side, box 1 in the high bits. -/
def sLayer (T : AdmittedTables) (x : RoundKey) : HalfBlock :=
  let out (kk : Nat) : BitVec 4 := sboxLookup T kk (sboxGroup x kk)
  out 0 ++ out 1 ++ out 2 ++ out 3 ++ out 4 ++ out 5 ++ out 6 ++ out 7

/-- SBOX k (R135). -/
def execSbox (kk : Fin 8) (s : State) : Result :=
  unlessHalted s <| withDin 6 s fun g => complete (sboxLookup s.tables kk.val g) s

/-- SLAYER (R136). -/
def execSlayer (s : State) : Result :=
  unlessHalted s <| withDin 48 s fun x => complete (sLayer s.tables x) s

end Sys2Proof.Machine
end

