-- ==== Sys2Proof/Machine/RoundFunction.lean ====
section
/-! DEFINITION. `round_function`: F and its command (spec 43 R180, R183). -/

namespace Sys2Proof.Machine

/-- `F(r, k)` (R180): expansion, key mixing, substitution, permutation, in that order. -/
def roundFunction (T : AdmittedTables) (r : HalfBlock) (k : RoundKey) : HalfBlock :=
  permute 32 T.p32 (sLayer T (permute 48 T.e r ^^^ k))

/-- ROUND_F (R183): the half-block from DIN, the round key from KIN, in any sequencer state. -/
def execRoundF (s : State) : Result :=
  unlessHalted s <| withDin 32 s fun r => complete (roundFunction s.tables r s.kin) s

end Sys2Proof.Machine
end

