-- ==== Sys2Proof/Machine/Feistel.lean ====
section
/-! DEFINITION. The Feistel network: Encrypt and Decrypt as functions (spec 44 R200, R201), the round-by-round commands
(R202 to R206) and the whole-block commands (R207, R208). -/

namespace Sys2Proof.Machine

/-- One round (R200 step 3): `(l, r) <- (r, l xor F(r, k))`. -/
def feistelRound (T : AdmittedTables) (lr : HalfBlock × HalfBlock) (k : RoundKey) : HalfBlock × HalfBlock :=
  (lr.2, lr.1 ^^^ roundFunction T lr.2 k)

/-- The rounds of a list of round keys, first key first. -/
def feistelRounds (T : AdmittedTables) (ks : List RoundKey) (lr : HalfBlock × HalfBlock) : HalfBlock × HalfBlock :=
  ks.foldl (feistelRound T) lr

/-- L and R: positions 1..32 and 33..64 of a block (R200 step 2, R201 step 1). -/
def splitBlock (x : Block) : HalfBlock × HalfBlock := (upper32 x, lower32 x)

/-- The closing swap: `R ‖ L` (R200 step 4, R201 step 2). -/
def swapJoin (lr : HalfBlock × HalfBlock) : Block := lr.2 ++ lr.1

/-- The `(l, r)` of Encrypt after round 16: IP, then the rounds with `RK[1]`, `RK[2]`, … (R200). -/
def encryptHalves (T : AdmittedTables) (ks : List RoundKey) (x : Block) : HalfBlock × HalfBlock :=
  feistelRounds T ks (splitBlock (permute 64 T.ip x))

/-- `Encrypt(x, RK)` (R200): no permutation after the swap. -/
def encrypt (T : AdmittedTables) (ks : List RoundKey) (x : Block) : Block := swapJoin (encryptHalves T ks x)

/-- The `(l, r)` of Decrypt after its last round: no IP, the keys in descending order (R201). -/
def decryptHalves (T : AdmittedTables) (ks : List RoundKey) (y : Block) : HalfBlock × HalfBlock :=
  feistelRounds T ks.reverse (splitBlock y)

/-- `Decrypt(y, RK)` (R201): IIP after the swap. -/
def decrypt (T : AdmittedTables) (ks : List RoundKey) (y : Block) : Block :=
  permute 64 T.iip (swapJoin (decryptHalves T ks y))

/-- The two checks that open a block: none in flight, and all 16 round keys made (R202, R203, R207, R208). -/
def openBlock (s : State) (go : Result) : Result :=
  failIf s.status.blkActive .blkSequence s <|
  failIf (decide (s.status.ksCnt ≠ 16)) .ksIncomplete s go

/-- FN_START_ENC (R202). -/
def execFnStartEnc (s : State) : Result :=
  unlessHalted s <| withDin 64 s fun x => openBlock s <|
    let lr := splitBlock (permute 64 s.tables.ip x)
    .next ((s.setLr lr.1 lr.2).setBlk true .encrypt 0)

/-- FN_START_DEC (R203): no IP. -/
def execFnStartDec (s : State) : Result :=
  unlessHalted s <| withDin 64 s fun y => openBlock s <|
    let lr := splitBlock y
    .next ((s.setLr lr.1 lr.2).setBlk true .decrypt 0)

/-- FN_ROUND (R204): one round with the round key of the block's direction and count. -/
def execFnRound (s : State) : Result :=
  unlessHalted s <|
  failIf (!s.status.blkActive) .blkSequence s <|
  match nextIndex? s.status.blkCnt with
  | none => raise .blkSequence s
  | some n =>
    withValue s.l fun l =>
    withValue s.r fun r =>
    withValue (s.rk[(roundKeyIndex s.status.blkDir n).val]) fun k =>
    let lr := feistelRound s.tables (l, r) k
    .next ((s.setLr lr.1 lr.2).setBlk s.status.blkActive s.status.blkDir n.succ)

/-- The output of a finished block (R205): the swap, then IIP in the decrypt direction only. -/
def finishedBlock (T : AdmittedTables) (dir : Dir) (lr : HalfBlock × HalfBlock) : Block :=
  match dir with
  | .encrypt => swapJoin lr
  | .decrypt => permute 64 T.iip (swapJoin lr)

/-- FN_FINISH (R205): L and R keep their values. -/
def execFnFinish (s : State) : Result :=
  unlessHalted s <|
  failIf (!s.status.blkActive) .blkSequence s <|
  failIf (decide (s.status.blkCnt ≠ 16)) .blkSequence s <|
  withValue s.l fun l =>
  withValue s.r fun r =>
  complete (finishedBlock s.tables s.status.blkDir (l, r)) (s.setBlk false .encrypt 0)

/-- LR_READ (R206): `L ‖ R`. -/
def execLrRead (s : State) : Result :=
  unlessHalted s <|
  match s.l with
  | none => raise .blkSequence s
  | some l => withValue s.r fun r => complete (l ++ r : Block) s

/-- ENC_BLOCK (R207): BLK_ACTIVE, BLK_DIR and BLK_CNT are not written (log 15). -/
def execEncBlock (s : State) : Result :=
  unlessHalted s <| withDin 64 s fun x => openBlock s <|
    withValue (roundKeys? s) fun ks =>
    let lr := encryptHalves s.tables ks x
    complete (encrypt s.tables ks x) (s.setLr lr.1 lr.2)

/-- DEC_BLOCK (R208): BLK_ACTIVE, BLK_DIR and BLK_CNT are not written (log 15). -/
def execDecBlock (s : State) : Result :=
  unlessHalted s <| withDin 64 s fun y => openBlock s <|
    withValue (roundKeys? s) fun ks =>
    let lr := decryptHalves s.tables ks y
    complete (decrypt s.tables ks y) (s.setLr lr.1 lr.2)

end Sys2Proof.Machine
end

