-- ==== Sys2Proof/Machine/KeySchedule.lean ====
section
/-! DEFINITION. `key_schedule_gen`: the schedule as a function (spec 42 R150 to R152) and its commands (R153 to R158). -/

namespace Sys2Proof.Machine

/-- C0 and D0: the halves of the PC1 output (R150 step 1, R152). -/
def initialHalves (T : AdmittedTables) (key : RawKey) : CdHalf × CdHalf :=
  let cd := permute 56 T.pc1 key
  (upper28 cd, lower28 cd)

/-- `SHIFTS[i + 1]` (R6). -/
def shiftAt (T : AdmittedTables) (i : Nat) : Nat := T.shifts.getD i 0

/-- Both halves rotated left by one amount (R150 step 2). -/
def rotateHalves (cd : CdHalf × CdHalf) (s : Nat) : CdHalf × CdHalf := (rotl cd.1 s, rotl cd.2 s)

/-- C and D after `n` steps; the rotations are cumulative (R150). -/
def halvesAfter (T : AdmittedTables) (key : RawKey) : Nat → CdHalf × CdHalf
  | 0 => initialHalves T key
  | n + 1 => rotateHalves (halvesAfter T key n) (shiftAt T n)

/-- The round key extracted from rotated halves: PC2 of C ‖ D (R150 step 3). -/
def extractKey (T : AdmittedTables) (cd : CdHalf × CdHalf) : RoundKey := permute 48 T.pc2 (cd.1 ++ cd.2 : CdPair)

/-- `KeySchedule(K)` (R152): entry `i` (0-based) is `rk_{i+1}`, made from the halves rotated `i + 1` times. -/
def keySchedule (T : AdmittedTables) (key : RawKey) : Vector RoundKey 16 :=
  sixteen fun i => extractKey T (halvesAfter T key (i.val + 1))

/-- KS_LOAD (R153): new halves, and every round key discarded. -/
def execKsLoad (s : State) : Result :=
  unlessHalted s <|
  withDin 64 s fun key =>
    failIf s.status.blkActive .blkSequence s <|
    let cd := initialHalves s.tables key
    .next (((s.setCd cd.1 cd.2).setRkStore (Vector.replicate 16 none)).setKs 0)

/-- KS_STEP (R155): step `KS_CNT + 1` from the halves the step before left. -/
def execKsStep (s : State) : Result :=
  unlessHalted s <|
  failIf s.status.blkActive .blkSequence s <|
  failIf (!s.status.ksLoaded) .ksNotLoaded s <|
  match nextIndex? s.status.ksCnt with
  | none => raise .ksOverrun s
  | some i =>
    withValue s.c fun c =>
    withValue s.d fun d =>
    let cd := rotateHalves (c, d) (shiftAt s.tables i.val)
    .next (((s.setCd cd.1 cd.2).setRk i (extractKey s.tables cd)).setKs i.succ)

/-- KS_GEN (R156): the whole schedule of the key on DIN; C and D end at C16 = C0 and D16 = D0 (R154). -/
def execKsGen (s : State) : Result :=
  unlessHalted s <|
  withDin 64 s fun key =>
    failIf s.status.blkActive .blkSequence s <|
    let cd := initialHalves s.tables key
    .next (((s.setCd cd.1 cd.2).setRkStore (sixteen fun i => some (keySchedule s.tables key)[i.val])).setKs 16)

/-- CD_READ (R157): C in `DOUT[55:28]`, D in `DOUT[27:0]`. -/
def execCdRead (s : State) : Result :=
  unlessHalted s <|
  failIf (!s.status.ksLoaded) .ksNotLoaded s <|
  withValue s.c fun c =>
  withValue s.d fun d =>
  complete (c ++ d : CdPair) s

/-- RK_READ i (R158), with `ii = i - 1`. -/
def execRkRead (ii : Fin 16) (s : State) : Result :=
  unlessHalted s <|
  match s.rk[ii.val] with
  | none => raise .rkUnwritten s
  | some k => complete k s

end Sys2Proof.Machine
end

