-- ==== Sys2Proof/Machine/Permutation.lean ====
section
/-! DEFINITION. `permutation_table_rom`: the six permutation commands (spec 40 R110 to R115). -/

namespace Sys2Proof.Machine

/-- The template of section 3: an `n`-bit operand through a table of length `len`, the result in DOUT, nothing else. -/
def permCommand (n len : Nat) (table : List Nat) (s : State) : Result :=
  unlessHalted s <| withDin n s fun v => complete (permute len table v) s

/-- PERM_PC1 (R110). -/
def execPermPc1 (s : State) : Result := permCommand 64 56 s.tables.pc1 s

/-- PERM_PC2 (R111). -/
def execPermPc2 (s : State) : Result := permCommand 56 48 s.tables.pc2 s

/-- PERM_E (R112). -/
def execPermE (s : State) : Result := permCommand 32 48 s.tables.e s

/-- PERM_P (R113). -/
def execPermP (s : State) : Result := permCommand 32 32 s.tables.p32 s

/-- PERM_IP (R114). -/
def execPermIp (s : State) : Result := permCommand 64 64 s.tables.ip s

/-- PERM_IIP (R115). -/
def execPermIip (s : State) : Result := permCommand 64 64 s.tables.iip s

end Sys2Proof.Machine
end

