-- ==== Sys2Proof/Machine/Dispatch.lean ====
section
/-! DEFINITION. The meaning of each command (spec 30_encoding R79), one arm per constructor of `Instr`. -/

namespace Sys2Proof.Machine

def exec (i : Instr) (s : State) : Host.Outcome State Fault Refusal :=
  match i with
  | .nop => Sys2Proof.Machine.execNop s
  | .statusRead => Sys2Proof.Machine.execStatusRead s
  | .permPc1 => Sys2Proof.Machine.execPermPc1 s
  | .permPc2 => Sys2Proof.Machine.execPermPc2 s
  | .permE => Sys2Proof.Machine.execPermE s
  | .permP => Sys2Proof.Machine.execPermP s
  | .permIp => Sys2Proof.Machine.execPermIp s
  | .permIip => Sys2Proof.Machine.execPermIip s
  | .sbox kk => Sys2Proof.Machine.execSbox kk s
  | .slayer => Sys2Proof.Machine.execSlayer s
  | .ksLoad => Sys2Proof.Machine.execKsLoad s
  | .ksStep => Sys2Proof.Machine.execKsStep s
  | .ksGen => Sys2Proof.Machine.execKsGen s
  | .rkRead ii => Sys2Proof.Machine.execRkRead ii s
  | .cdRead => Sys2Proof.Machine.execCdRead s
  | .roundF => Sys2Proof.Machine.execRoundF s
  | .fnStartEnc => Sys2Proof.Machine.execFnStartEnc s
  | .fnStartDec => Sys2Proof.Machine.execFnStartDec s
  | .fnRound => Sys2Proof.Machine.execFnRound s
  | .fnFinish => Sys2Proof.Machine.execFnFinish s
  | .encBlock => Sys2Proof.Machine.execEncBlock s
  | .decBlock => Sys2Proof.Machine.execDecBlock s
  | .lrRead => Sys2Proof.Machine.execLrRead s

end Sys2Proof.Machine
end

