-- ==== Sys2Proof/Machine/Issue.lean ====
section
/-! DEFINITION. Taking one host event (spec 30_encoding R70, R83; 60 R243; 70 R280). The engine fetches no instruction
(20_memory R62): the host presents each command, so "fetching" is taking the oldest event of `inbox` that the engine is not stuck for. -/

namespace Sys2Proof.Machine

/-- The fault a rejected word raises (R80, R81). -/
def decodeCause : DecodeError → Cause
  | .illegalOpcode => .illegalOpcode
  | .reservedArg => .reservedArg

/-- The effect of the word on the CMD port, in the order of R83: halted, opcode, reserved ARG, then the command's own checks,
which start with the DIN width. A halted engine ignores every word that is not NOP or STATUS_READ, a rejected one
included (R243); `exec` holds that check for the words that decode. -/
def runCommand (s : State) : Result :=
  match decode s.port.cmd with
  | .ok i => exec i s
  | .error e => unlessHalted s (raise (decodeCause e) s)

/-- One event: a transaction is presented on the ports and executed to completion (R59, R70); reset puts the engine in
the state of R31, and a command in progress has no effect (R280). -/
def takeEvent (s : State) (e : HostEvent) (rest : List HostEvent) : Result :=
  match e with
  | .command t => runCommand (s.present t rest)
  | .reset inProgress => .next ((s.present (inProgress.getD s.port) rest).resetRegisters)

/-- The engine takes no step for this event: it is a word the engine is stuck for (60 R243; 92 D10, 93 U8). Never a
reset, which alone ends the halt. -/
def State.ignores (s : State) : HostEvent → Bool
  | .command t => s.stuckOn t.cmd
  | .reset _ => false

/-- The host's events from the first the engine takes: the ones it ignores before that are no steps, and are passed over
(log 5). A running engine ignores none. -/
def State.pending (s : State) : List HostEvent := s.inbox.dropWhile s.ignores

/-- One step: the oldest event of `inbox` that the engine does not ignore. With no such event there is no further step, and
nothing moves: an idle engine holds its state (60 R255), and a stuck one is stuck (R243, 93 U8). -/
def stepEngine (s : State) : Result :=
  match s.pending with
  | [] => .next s
  | e :: rest => takeEvent s e rest

/-- The transaction that presents word `w` and leaves the other input ports as they are. -/
def wordTransaction (s : State) (w : CmdWord) : Transaction := { s.port with cmd := w }

end Sys2Proof.Machine
end

