-- ==== Sys2Proof/Machine/Step.lean ====
section
/-! DEFINITION. One step of the engine, and the placing of a command word where the next step takes it. The rules stand
in `Machine/Issue.lean`. -/

namespace Sys2Proof.Machine

/-- One step of the machine: one host event, or nothing if there is none the engine takes. -/
def step (s : State) : Host.Outcome State Fault Refusal := stepEngine s

/-- `s` with the word `w` as the very next command the host issues, DIN and KIN as they stand on the ports (log 4). The
engine has no program memory (10_state R21), so this is the host presenting the command. -/
def State.withFetchWord (s : State) (nbits w : Nat) : State :=
  { s with inbox := .command (wordTransaction s (BitVec.ofNat 16 (w % 2 ^ nbits))) :: s.inbox }

end Sys2Proof.Machine
end

