-- ==== Sys2Proof/Safety.lean ====
section
/-! DEFINITION. The terms claims are stated in: the invariants of the state (spec 10_state R29, 70 R292), what a command
checks before it acts (30_encoding R83), bit-by-bit descriptions of what the datapath computes, and runs of several
commands.

The bit-by-bit descriptions are written from the rules, position by position, without the machine's own `permute`,
`rotl`, `sLayer` or table order, so that a statement in them says what the machine does and does not repeat it. -/

namespace Sys2Proof.Machine

/-! ### Invariants -/

/-- R29 item 1: `KS_LOADED = 0` iff `C = none` iff `D = none`. -/
abbrev State.CdIffLoaded (s : State) : Prop :=
  (s.status.ksLoaded = false ↔ s.c = none) ∧ (s.c = none ↔ s.d = none)
/-- R29 item 2. -/
abbrev State.NoStepsUnloaded (s : State) : Prop := s.status.ksLoaded = false → s.status.ksCnt = 0
/-- R29 item 3: the round keys that exist are those of the steps taken. -/
abbrev State.RkIffStepped (s : State) : Prop :=
  ∀ i : Fin 16, s.rk[i.val] ≠ none ↔ s.status.ksLoaded = true ∧ i.val + 1 ≤ s.status.ksCnt.val
/-- R29 item 4: a block in flight has its halves and all its keys. -/
abbrev State.BlockHasHalves (s : State) : Prop :=
  s.status.blkActive = true → s.l ≠ none ∧ s.r ≠ none ∧ s.status.ksCnt = 16
/-- R29 item 5. -/
abbrev State.IdleBlockFields (s : State) : Prop :=
  s.status.blkActive = false → s.status.blkCnt = 0 ∧ s.status.blkDir = .encrypt
/-- R29 item 6: `ERR = 0` iff `CAUSE = 0`. -/
abbrev State.ErrIffCause (s : State) : Prop := s.status.err = false ↔ s.status.cause = none
/-- R29 item 7. -/
abbrev State.LIffR (s : State) : Prop := s.l = none ↔ s.r = none

/-- The invariants of R29, all seven. -/
abbrev State.Inv (s : State) : Prop :=
  s.CdIffLoaded ∧ s.NoStepsUnloaded ∧ s.RkIffStepped ∧ s.BlockHasHalves ∧ s.IdleBlockFields ∧ s.ErrIffCause ∧ s.LIffR

/-- R292: C, D and the round keys all come from ONE key: C and D are its halves rotated `KS_CNT` times, and each round
key that exists is the one of its step. -/
def State.OneSchedule (s : State) : Prop :=
  s.status.ksLoaded = true → ∃ key : RawKey,
    s.c = some (halvesAfter s.tables key s.status.ksCnt.val).1 ∧
    s.d = some (halvesAfter s.tables key s.status.ksCnt.val).2 ∧
    ∀ i : Fin 16, i.val < s.status.ksCnt.val → s.rk[i.val] = some (keySchedule s.tables key)[i.val]

/-! ### Checks -/

/-- The state a fault leaves (R242), written out. -/
def State.faulted (s : State) (k : Cause) : State :=
  { s with dout := none, status := { s.status with err := true, cause := some k } }

/-- The checks of a decoded command on a running engine, in the order of R83 (DIN width, then the command's own, in the
order its rule lists them): the condition under which each raises, and its cause (R240). -/
def checksOf (i : Instr) (s : State) : List (Bool × Cause) :=
  let din := s.port.din.toNat
  let st := s.status
  match i with
  | .permPc2 => [(decide (2 ^ 56 ≤ din), .invalidLength)]
  | .permE | .permP | .roundF => [(decide (2 ^ 32 ≤ din), .invalidLength)]
  | .sbox _ => [(decide (2 ^ 6 ≤ din), .invalidLength)]
  | .slayer => [(decide (2 ^ 48 ≤ din), .invalidLength)]
  | .ksLoad | .ksGen => [(st.blkActive, .blkSequence)]
  | .ksStep => [(st.blkActive, .blkSequence), (!st.ksLoaded, .ksNotLoaded), (decide (st.ksCnt = 16), .ksOverrun)]
  | .cdRead => [(!st.ksLoaded, .ksNotLoaded)]
  | .rkRead ii => [(decide (s.rk[ii.val] = none), .rkUnwritten)]
  | .fnStartEnc | .fnStartDec | .encBlock | .decBlock =>
    [(st.blkActive, .blkSequence), (decide (st.ksCnt ≠ 16), .ksIncomplete)]
  | .fnRound => [(!st.blkActive, .blkSequence), (decide (st.blkCnt = 16), .blkSequence)]
  | .fnFinish => [(!st.blkActive, .blkSequence), (decide (st.blkCnt ≠ 16), .blkSequence)]
  | .lrRead => [(decide (s.l = none), .blkSequence)]
  | .nop | .statusRead | .permPc1 | .permIp | .permIip => []

/-- The first check that fails, if any (R83, R245). -/
def firstFailing : List (Bool × Cause) → Option Cause
  | [] => none
  | (true, k) :: _ => some k
  | (false, _) :: rest => firstFailing rest

/-- The commands that read no operand from DIN (R75, R77). -/
def leavesDinUnused : Instr → Bool
  | .nop | .statusRead | .ksStep | .rkRead _ | .cdRead | .fnRound | .fnFinish | .lrRead => true
  | .permPc1 | .permPc2 | .permE | .permP | .permIp | .permIip | .sbox _ | .slayer | .ksLoad | .ksGen | .roundF => false
  | .fnStartEnc | .fnStartDec | .encBlock | .decBlock => false

/-- The code of a recorded cause, and 0 for none (R240). -/
def causeNumber : Option Cause → Nat
  | none => 0
  | some .illegalOpcode => 1
  | some .reservedArg => 2
  | some .invalidLength => 3
  | some .ksNotLoaded => 4
  | some .ksOverrun => 5
  | some .ksIncomplete => 6
  | some .rkUnwritten => 7
  | some .blkSequence => 8

/-! ### The datapath, bit by bit -/

/-- R101 at the ports: the low `len` bits of `out` are the `n`-bit field of `din` through `table`,
`out[len - p] = din[n - table[p]]`, and the bits above them are 0 (R75). -/
def PermutesTo (len n : Nat) (table : List Nat) (din out : Block) : Prop :=
  (∀ p, 1 ≤ p → p ≤ len → out.getLsbD (len - p) = din.getLsbD (n - table.getD (p - 1) 0)) ∧
  ∀ b, len ≤ b → out.getLsbD b = false

/-- The entry of box `kk + 1` a 6-bit group selects (R131, R132): row `2*g[5] + g[0]`, column `g[4:1]`. -/
def sboxValue (T : AdmittedTables) (kk : Nat) (g : BitVec 6) : Nat :=
  (T.sboxes.getD kk []).getD ((2 * (g.getLsbD 5).toNat + (g.getLsbD 0).toNat) * 16 + g.toNat / 2 % 16) 0

/-- R134 at the ports: nibble `kk` of the 32-bit `out`, counted from the left, is box `kk + 1` on group `kk` of the
48-bit field of `din`, and the bits above are 0. -/
def SubstitutesTo (T : AdmittedTables) (din out : Block) : Prop :=
  (∀ kk, kk < 8 → out.toNat / 2 ^ (28 - 4 * kk) % 16 = sboxValue T kk (din.extractLsb' (42 - 6 * kk) 6)) ∧
  out.toNat < 2 ^ 32

/-- R180, step by step on zero-extended vectors: `out` is F of the half-block `r` and the round key `k`. -/
def RoundFunctionTo (T : AdmittedTables) (r k out : Block) : Prop :=
  ∃ x z : Block, PermutesTo 48 32 T.e r x ∧ SubstitutesTo T (x ^^^ k) z ∧ PermutesTo 32 32 T.p32 z out

/-- R151: `w` is the 28-bit `v` rotated left by `s`, `pos(w, p) = pos(v, ((p - 1 + s) mod 28) + 1)`. -/
def RotatesTo (s : Nat) (v w : CdHalf) : Prop :=
  ∀ p, 1 ≤ p → p ≤ 28 → w.getLsbD (28 - p) = v.getLsbD (28 - ((p - 1 + s) % 28 + 1))

/-- The shift schedule as R6 and R150 print it. -/
def printedShifts : List Nat := [1, 1, 2, 2, 2, 2, 2, 2, 1, 2, 2, 2, 2, 2, 2, 1]

/-- R200 step 3: one round with key `k` takes `(l, r)` to `(l', r')`: `l' = r`, and `l xor r'` is F(r, k). -/
def RoundTo (T : AdmittedTables) (k : RoundKey) (l r l' r' : HalfBlock) : Prop :=
  l' = r ∧ RoundFunctionTo T (r.setWidth 64) (k.setWidth 64) ((l ^^^ r').setWidth 64)

/-! ### Runs -/

/-- Several commands one after another on the same port values, stopping at a stop of the model. -/
def execAll : List Instr → State → Result
  | [], s => .next s
  | i :: rest, s =>
    match exec i s with
    | .next s' => execAll rest s'
    | .fault f => .fault f
    | .refused f => .refused f

/-- A next state changed by `f`; a stop stays as it is. -/
def onNext (f : State → State) : Result → Result
  | .next s => .next (f s)
  | .fault r => .fault r
  | .refused r => .refused r

/-- A transaction of the host with word `cmd`. -/
def issue (cmd : CmdWord) (din : Block) (kin : RoundKey) : HostEvent := .command { cmd := cmd, din := din, kin := kin }

/-- The next host event the engine takes is a reset. -/
def State.resetNext (s : State) : Prop := ∃ p rest, s.pending = .reset p :: rest

/-! ### Standard DES, for R210 -/

/-- The final permutation of standard DES, which the spec prints as R109 and marks as general knowledge (log 17). -/
def desFinalPermutation : List Nat :=
  [40,  8, 48, 16, 56, 24, 64, 32] ++
  [39,  7, 47, 15, 55, 23, 63, 31] ++
  [38,  6, 46, 14, 54, 22, 62, 30] ++
  [37,  5, 45, 13, 53, 21, 61, 29] ++
  [36,  4, 44, 12, 52, 20, 60, 28] ++
  [35,  3, 43, 11, 51, 19, 59, 27] ++
  [34,  2, 42, 10, 50, 18, 58, 26] ++
  [33,  1, 41,  9, 49, 17, 57, 25]

/-- Standard DES with the round keys `ks` in the order they are used: IP, 16 rounds, swap, final permutation (log 17). -/
def standardDes (ks : List RoundKey) (x : Block) : Block :=
  permute 64 desFinalPermutation (swapJoin (feistelRounds desStandard ks (splitBlock (permute 64 desIp x))))

end Sys2Proof.Machine
end

