-- ==== Sys2Proof/Certificates/Slice0/Obligations.lean ====
section
/-! DEFINITION. The statements for the provers, from the numbered rules of the spec. Values are described bit by bit
with the predicates of `Safety.lean`; a conclusion `exec i s = .next { s with … }` is also the frame: every field not
named keeps its value. -/

open Sys2Proof Sys2Proof.Machine

/-! ### Encoding and decoding -/

/-- R71 to R74, R79: a word selects a command exactly when it is that command's word; so decoding inverts encoding on
every command, and no two commands share a word. -/
def Obligations.DecodeAnswersCommandExactlyOnItsWord : Prop :=
  ∀ (w : CmdWord) (i : Instr), decode w = .ok i ↔ w = encode i

/-- R79: each row of the opcode map, with its match and mask as printed. -/
def Obligations.WordSelectsCommandIffItsRowMatches : Prop :=
  ∀ w : CmdWord,
    (decode w = .ok .nop ↔ w &&& 0xFFFF = 0x0000) ∧
    (decode w = .ok .statusRead ↔ w &&& 0xFFFF = 0x0100) ∧
    (decode w = .ok .permPc1 ↔ w &&& 0xFFFF = 0x1000) ∧
    (decode w = .ok .permPc2 ↔ w &&& 0xFFFF = 0x1100) ∧
    (decode w = .ok .permE ↔ w &&& 0xFFFF = 0x1200) ∧
    (decode w = .ok .permP ↔ w &&& 0xFFFF = 0x1300) ∧
    (decode w = .ok .permIp ↔ w &&& 0xFFFF = 0x1400) ∧
    (decode w = .ok .permIip ↔ w &&& 0xFFFF = 0x1500) ∧
    ((∃ kk, decode w = .ok (.sbox kk)) ↔ w &&& 0xFFF8 = 0x2000) ∧
    (decode w = .ok .slayer ↔ w &&& 0xFFFF = 0x2100) ∧
    (decode w = .ok .ksLoad ↔ w &&& 0xFFFF = 0x3000) ∧
    (decode w = .ok .ksStep ↔ w &&& 0xFFFF = 0x3100) ∧
    (decode w = .ok .ksGen ↔ w &&& 0xFFFF = 0x3200) ∧
    ((∃ ii, decode w = .ok (.rkRead ii)) ↔ w &&& 0xFFF0 = 0x3300) ∧
    (decode w = .ok .cdRead ↔ w &&& 0xFFFF = 0x3400) ∧
    (decode w = .ok .roundF ↔ w &&& 0xFFFF = 0x4000) ∧
    (decode w = .ok .fnStartEnc ↔ w &&& 0xFFFF = 0x5000) ∧
    (decode w = .ok .fnStartDec ↔ w &&& 0xFFFF = 0x5100) ∧
    (decode w = .ok .fnRound ↔ w &&& 0xFFFF = 0x5200) ∧
    (decode w = .ok .fnFinish ↔ w &&& 0xFFFF = 0x5300) ∧
    (decode w = .ok .encBlock ↔ w &&& 0xFFFF = 0x5400) ∧
    (decode w = .ok .decBlock ↔ w &&& 0xFFFF = 0x5500) ∧
    (decode w = .ok .lrRead ↔ w &&& 0xFFFF = 0x5600)

/-- R73, R74: the box is `uint(ARG[2:0]) + 1`, the index `uint(ARG[3:0]) + 1`, and every value of the field names one. -/
def Obligations.SelectorsAreTheArgumentField : Prop :=
  ∀ w : CmdWord,
    (∀ kk, decode w = .ok (.sbox kk) → kk.val + 1 = w.toNat % 8 + 1) ∧
    (∀ ii, decode w = .ok (.rkRead ii) → ii.val + 1 = w.toNat % 16 + 1) ∧
    (∀ f, f < 8 → w = 0x2000 + BitVec.ofNat 16 f → ∃ kk, decode w = .ok (.sbox kk) ∧ kk.val = f) ∧
    (∀ f, f < 16 → w = 0x3300 + BitVec.ofNat 16 f → ∃ ii, decode w = .ok (.rkRead ii) ∧ ii.val = f)

/-- R79 to R81: every word matches one row and selects a command, or matches none and is rejected by one of the two
decode faults. The spec marks it as derived ("Every one of the 65536 command words …", R82). -/
def Obligations.EveryWordSelectsOneCommandOrOneDecodeFault : Prop :=
  ∀ w : CmdWord,
    ((opcodeMap.filter fun row => w &&& row.2 == row.1).length = 1 ∧ ∃ i, decode w = .ok i) ∨
    ((opcodeMap.filter fun row => w &&& row.2 == row.1) = [] ∧
      (decode w = .error .illegalOpcode ∨ decode w = .error .reservedArg))

/-- Words written out from the formats of R72 and the rows of R79. -/
def Obligations.WrittenOutWordsDecode : Prop :=
  decode 0b0000000000000000#16 = .ok .nop ∧ decode 0b0001001000000000#16 = .ok .permE ∧
  decode 0b0010000000000101#16 = .ok (.sbox 5) ∧ decode 0b0011001100001111#16 = .ok (.rkRead 15) ∧
  decode 0b0100000000000000#16 = .ok .roundF ∧ decode 0b0101010100000000#16 = .ok .decBlock

/-- R80: an unassigned operation code, listed as the rule lists them, raises ILLEGAL_OPCODE. -/
def Obligations.UnassignedOpcodeRaisesIllegalOpcode : Prop :=
  ∀ (s : State) (t : Transaction) (rest : List HostEvent), s.status.err = false → s.inbox = .command t :: rest →
    (let o := t.cmd.toNat / 256
     0x02 ≤ o ∧ o ≤ 0x0F ∨ 0x16 ≤ o ∧ o ≤ 0x1F ∨ 0x22 ≤ o ∧ o ≤ 0x2F ∨ 0x35 ≤ o ∧ o ≤ 0x3F ∨
       0x41 ≤ o ∧ o ≤ 0x4F ∨ 0x57 ≤ o ∧ o ≤ 0xFF) →
    step s = .next (({ s with port := t, inbox := rest } : State).faulted .illegalOpcode)

/-- R81: an assigned operation code with a reserved ARG bit set raises RESERVED_ARG: any of ARG[7:0] in format N, of
ARG[7:3] for SBOX, of ARG[7:4] for RK_READ (the bits as R81 lists them, log 18). -/
def Obligations.ReservedArgBitRaisesReservedArg : Prop :=
  ∀ (s : State) (t : Transaction) (rest : List HostEvent), s.status.err = false → s.inbox = .command t :: rest →
    (let o := t.cmd.toNat / 256
     let arg := t.cmd.toNat % 256
     o ∈ [0x00, 0x01, 0x10, 0x11, 0x12, 0x13, 0x14, 0x15, 0x21, 0x30, 0x31, 0x32, 0x34, 0x40] ∧ arg ≠ 0 ∨
     o ∈ [0x50, 0x51, 0x52, 0x53, 0x54, 0x55, 0x56] ∧ arg ≠ 0 ∨
     o = 0x20 ∧ arg / 8 ≠ 0 ∨ o = 0x33 ∧ arg / 16 ≠ 0) →
    step s = .next (({ s with port := t, inbox := rest } : State).faulted .reservedArg)

/-! ### Steps, reset and the halt -/

/-- R70, R83: a transaction whose word decodes is presented on the ports and executed; nothing else happens in the
step. A halted engine makes no step for a word it is stuck for (R243): see the statements on the halt. -/
def Obligations.StepRunsTheDecodedCommand : Prop :=
  ∀ (s : State) (t : Transaction) (rest : List HostEvent) (i : Instr),
    s.inbox = .command t :: rest → decode t.cmd = .ok i → ¬ (s.status.err = true ∧ t.cmd ≠ 0x0000 ∧ t.cmd ≠ 0x0100) →
    step s = exec i { s with port := t, inbox := rest }

/-- Between transactions the engine holds its state (R255). That the host's future is a list, and that an empty list is
a step that changes nothing, is the model's choice (log 2). -/
def Obligations.IdleStepHoldsTheState : Prop :=
  ∀ s : State, s.inbox = [] → step s = .next s

/-- R31, R280: reset, whatever command is in progress, empties every data register, clears every STATUS field and keeps
the tables; and no other event leaves the halted state. -/
def Obligations.ResetEmptiesEveryRegisterAndAloneEndsTheHalt : Prop :=
  (∀ (s : State) (p : Option Transaction) (rest : List HostEvent), s.inbox = .reset p :: rest →
    ∃ u, step s = .next u ∧ u.c = none ∧ u.d = none ∧ (∀ i : Fin 16, u.rk[i.val] = none) ∧ u.l = none ∧ u.r = none ∧
      u.dout = none ∧ u.status.word = 0 ∧ u.status.err = false ∧ u.status.cause = none ∧ u.status.ksLoaded = false ∧
      u.status.ksCnt = 0 ∧ u.status.blkActive = false ∧ u.status.blkDir = .encrypt ∧ u.status.blkCnt = 0 ∧
      u.tables = s.tables ∧ u.inbox = rest) ∧
  ∀ s u : State, s.status.err = true → step s = .next u → u.status.err = false → s.resetNext

/-- R31 on `State.reset`. The default tables are the spec's default (R7). -/
def Obligations.ResetStateHoldsNothing : Prop :=
  State.reset.c = none ∧ State.reset.d = none ∧ (∀ i : Fin 16, State.reset.rk[i.val] = none) ∧ State.reset.l = none ∧
  State.reset.r = none ∧ State.reset.dout = none ∧ State.reset.status.word = 0 ∧ State.reset.tables = desStandard

/-- R242: whatever word faults on a running engine, the state is the one before it but for ERR, CAUSE and DOUT (and the
transaction taken), and CAUSE is the decode fault of a word that selects no command, else the first of the command's
checks that fails (R83). -/
def Obligations.EveryFaultIsPrecise : Prop :=
  ∀ s u : State, s.status.err = false → step s = .next u → u.status.err = true →
    ∃ t rest k, s.inbox = .command t :: rest ∧
      u = { s with port := t, inbox := rest, dout := none,
                   status := { s.status with err := true, cause := some k } } ∧
      (decode t.cmd = .error .illegalOpcode → k = .illegalOpcode) ∧
      (decode t.cmd = .error .reservedArg → k = .reservedArg) ∧
      ∀ i, decode t.cmd = .ok i → firstFailing (checksOf i { s with port := t }) = some k

/-- R243: while halted, word 0x0000 changes nothing and word 0x0100 writes STATUS to DOUT. For every other word, assigned
or not, the engine is stuck: the command has no effect and makes no step, the step is that of what the host does after it,
and if the host does nothing more that the engine takes, nothing moves. That the host goes on past such a word is the
model's reading (log 5). -/
def Obligations.HaltedEngineAnswersOnlyNopAndStatusRead : Prop :=
  ∀ s : State, s.status.err = true →
    (∀ i : Instr, i ≠ .nop → i ≠ .statusRead → exec i s = .next s) ∧
    ∀ (t : Transaction) (rest : List HostEvent), s.inbox = .command t :: rest →
      (t.cmd = 0x0000 → step s = .next { s with port := t, inbox := rest }) ∧
      (t.cmd = 0x0100 →
        step s = .next { s with port := t, inbox := rest, dout := some (s.status.word.setWidth 64) }) ∧
      (t.cmd ≠ 0x0000 → t.cmd ≠ 0x0100 →
        ((∃ e ∈ rest, s.ignores e = false) → step s = step { s with inbox := rest }) ∧
        ((∀ e ∈ rest, s.ignores e = true) → step s = .next s))

/-- R243, D10, U8: a halted engine is stuck for every word but 0x0000 and 0x0100, until reset. If the host issues nothing
but such words, no number of steps moves anything; and however many of them come before it, the very next step is the NOP,
the STATUS_READ or the reset that follows (the sequences of 95 section 2.6). That the host goes on past the words is the
model's reading (logs 2 and 5). -/
def Obligations.StuckEngineMakesNoStepUntilReset : Prop :=
  ∀ (s : State) (ts : List Transaction), s.status.err = true → (∀ t ∈ ts, t.cmd ≠ 0x0000 ∧ t.cmd ≠ 0x0100) →
    (∀ n : Nat, Host.Core.run Sys2Proof.core n { s with inbox := ts.map .command } =
      .next { s with inbox := ts.map .command }) ∧
    ∀ more : List HostEvent,
      (∀ t : Transaction, t.cmd = 0x0000 →
        step { s with inbox := ts.map .command ++ .command t :: more } = .next { s with port := t, inbox := more }) ∧
      (∀ t : Transaction, t.cmd = 0x0100 →
        step { s with inbox := ts.map .command ++ .command t :: more } =
          .next { s with port := t, inbox := more, dout := some (s.status.word.setWidth 64) }) ∧
      ∀ p : Option Transaction,
        step { s with inbox := ts.map .command ++ .reset p :: more } = step { s with inbox := .reset p :: more } ∧
        ∃ u, step { s with inbox := ts.map .command ++ .reset p :: more } = .next u ∧ u.status.err = false

/-- R26: ERR and the first CAUSE stay, and so does every register but DOUT, under every step but a reset; a reset clears
both. -/
def Obligations.FirstFaultStaysRecordedUntilReset : Prop :=
  ∀ s u : State, s.status.err = true → step s = .next u →
    (¬ s.resetNext →
      u.status = s.status ∧ u.c = s.c ∧ u.d = s.d ∧ u.rk = s.rk ∧ u.l = s.l ∧ u.r = s.r) ∧
    (s.resetNext → u.status.err = false ∧ u.status.cause = none)

/-- R70: the valid indication is 0 while DOUT holds nothing, and the STATUS port shows what STATUS_READ returns. -/
def Obligations.OutputPortsShowDoutAndStatus : Prop :=
  ∀ s : State, (s.outputs.doutValid = false ↔ s.dout = none) ∧ s.outputs.dout = s.dout ∧
    exec .statusRead s = .next { s with dout := some (s.outputs.status.setWidth 64) }

/-! ### Checks -/

/-- R83, R240, R245: the first check that fails, in the order given, is the fault the command takes. -/
def Obligations.FirstFailingCheckIsTheFaultTaken : Prop :=
  ∀ (i : Instr) (s : State) (k : Cause), s.status.err = false → firstFailing (checksOf i s) = some k →
    exec i s = .next (s.faulted k)

/-- R240, R241: where no check fails, the command completes and records no fault, in every state that meets the
invariants of R29. -/
def Obligations.CommandCompletesWhenNoCheckFails : Prop :=
  ∀ (i : Instr) (s : State), s.Inv → s.status.err = false → firstFailing (checksOf i s) = none →
    ∃ u, exec i s = .next u ∧ u.status.err = false ∧ u.status.cause = none

/-! ### Control -/

/-- R230: NOP changes nothing, in every state, the halted one included. -/
def Obligations.NopChangesNothing : Prop :=
  encode .nop = 0x0000 ∧ ∀ s : State, exec .nop s = .next s

/-- R231, R25: STATUS_READ writes DOUT only, with every field where R25 puts it and the reserved bits 0, halted or not. -/
def Obligations.StatusReadReturnsTheStatusLayout : Prop :=
  encode .statusRead = 0x0100 ∧ ∀ s : State, ∃ v : Block, exec .statusRead s = .next { s with dout := some v } ∧
    v.getLsbD 0 = s.status.err ∧ v.toNat / 2 ^ 1 % 16 = causeNumber s.status.cause ∧
    v.getLsbD 5 = s.status.ksLoaded ∧ v.toNat / 2 ^ 6 % 32 = s.status.ksCnt.val ∧
    v.getLsbD 11 = s.status.blkActive ∧ v.getLsbD 12 = decide (s.status.blkDir = .decrypt) ∧
    v.toNat / 2 ^ 13 % 32 = s.status.blkCnt.val ∧ v.toNat < 2 ^ 18

/-! ### Permutations and S-boxes -/

/-- R110, R114, R115: the 64-bit operand through PC1, IP, IIP; DOUT alone changes; no fault. -/
def Obligations.WidePermutationsPermuteDin : Prop :=
  encode .permPc1 = 0x1000 ∧ encode .permIp = 0x1400 ∧ encode .permIip = 0x1500 ∧
  ∀ s : State, s.status.err = false →
    (∃ v, exec .permPc1 s = .next { s with dout := some v } ∧ PermutesTo 56 64 s.tables.pc1 s.port.din v) ∧
    (∃ v, exec .permIp s = .next { s with dout := some v } ∧ PermutesTo 64 64 s.tables.ip s.port.din v) ∧
    (∃ v, exec .permIip s = .next { s with dout := some v } ∧ PermutesTo 64 64 s.tables.iip s.port.din v)

/-- R111, R113: the 56-bit operand through PC2, the 32-bit operand through P32; DOUT alone changes; a set bit above the
field raises INVALID_LENGTH. -/
def Obligations.PermPc2AndPermPPermuteTheirField : Prop :=
  encode .permPc2 = 0x1100 ∧ encode .permP = 0x1300 ∧
  ∀ s : State, s.status.err = false →
    (s.port.din.toNat < 2 ^ 56 →
      ∃ v, exec .permPc2 s = .next { s with dout := some v } ∧ PermutesTo 48 56 s.tables.pc2 s.port.din v) ∧
    (2 ^ 56 ≤ s.port.din.toNat → exec .permPc2 s = .next (s.faulted .invalidLength)) ∧
    (s.port.din.toNat < 2 ^ 32 →
      ∃ v, exec .permP s = .next { s with dout := some v } ∧ PermutesTo 32 32 s.tables.p32 s.port.din v) ∧
    (2 ^ 32 ≤ s.port.din.toNat → exec .permP s = .next (s.faulted .invalidLength))

/-- R103, R112: PERM_E is the expansion of R103's formula, `E[6(g-1)+j+1] = ((4(g-1)+j-1) mod 32) + 1`, whatever the
tables; a set bit above 32 raises INVALID_LENGTH. -/
def Obligations.PermEFollowsTheWindowFormula : Prop :=
  encode .permE = 0x1200 ∧
  ∀ s : State, s.status.err = false →
    (s.port.din.toNat < 2 ^ 32 →
      ∃ v : Block, exec .permE s = .next { s with dout := some v } ∧ (∀ b, 48 ≤ b → v.getLsbD b = false) ∧
        ∀ g j, 1 ≤ g → g ≤ 8 → j ≤ 5 →
          v.getLsbD (48 - (6 * (g - 1) + j + 1)) = s.port.din.getLsbD (32 - ((4 * (g - 1) + j + 31) % 32 + 1))) ∧
    (2 ^ 32 ≤ s.port.din.toNat → exec .permE s = .next (s.faulted .invalidLength))

/-- R104: IIP is the inverse of IP, entry by entry and on every block, and no other table of 64 positions is; it is the
inverse on the other side too, which is the spec's own inference ("It follows that …", which R104 marks as derived). -/
def Obligations.IipIsTheInverseOfIp : Prop :=
  ∀ T : AdmittedTables,
    (∀ q, 1 ≤ q → q ≤ 64 → T.iip.getD (T.ip.getD (q - 1) 0 - 1) 0 = q) ∧
    (∀ x : Block, permute 64 T.iip (permute 64 T.ip x : Block) = x) ∧
    (∀ x : Block, permute 64 T.ip (permute 64 T.iip x : Block) = x) ∧
    ∀ t : List Nat, t.length = 64 → (∀ p ∈ t, 1 ≤ p ∧ p ≤ 64) →
      (∀ x : Block, permute 64 t (permute 64 T.ip x : Block) = x) → t = T.iip

/-- R132, R135: SBOX k returns the entry of box `k` at row `2*g[5] + g[0]`, column `g[4:1]`; DOUT alone changes; a set
bit above 6 raises INVALID_LENGTH. -/
def Obligations.SboxReturnsTheSelectedEntry : Prop :=
  ∀ kk : Fin 8, encode (.sbox kk) = 0x2000 + BitVec.ofNat 16 kk.val ∧
  ∀ s : State, s.status.err = false →
    (s.port.din.toNat < 2 ^ 6 →
      ∃ v : Block, exec (.sbox kk) s = .next { s with dout := some v } ∧
        v.toNat = sboxValue s.tables kk.val (s.port.din.setWidth 6)) ∧
    (2 ^ 6 ≤ s.port.din.toNat → exec (.sbox kk) s = .next (s.faulted .invalidLength))

/-- The source's worked decode: input 011011 reads linear index 29 of whichever box, for every table instance. The spec
derives the index ("row 1 (0-based) and column 13, so linear index 29", R133). -/
def Obligations.WorkedDecodeReadsIndex29 : Prop :=
  ∀ (kk : Fin 8) (s : State), s.status.err = false → s.port.din = 0b011011 →
    ∃ v : Block, exec (.sbox kk) s = .next { s with dout := some v } ∧
      v.toNat = (s.tables.sboxes.getD kk.val []).getD 29 0

/-- R134, R136: SLAYER applies box `k` to group `k` and puts its output in nibble `k`; DOUT alone changes; a set bit
above 48 raises INVALID_LENGTH. -/
def Obligations.SlayerSubstitutesEachGroup : Prop :=
  encode .slayer = 0x2100 ∧
  ∀ s : State, s.status.err = false →
    (s.port.din.toNat < 2 ^ 48 →
      ∃ v, exec .slayer s = .next { s with dout := some v } ∧ SubstitutesTo s.tables s.port.din v) ∧
    (2 ^ 48 ≤ s.port.din.toNat → exec .slayer s = .next (s.faulted .invalidLength))

/-! ### Key schedule -/

/-- R153: KS_LOAD puts PC1 of the key in C ‖ D, discards every round key and starts the count; while a block is in flight
it raises BLK_SEQUENCE. -/
def Obligations.KsLoadStartsASchedule : Prop :=
  encode .ksLoad = 0x3000 ∧
  ∀ s : State, s.status.err = false →
    (s.status.blkActive = false →
      ∃ c d : CdHalf, PermutesTo 56 64 s.tables.pc1 s.port.din ((c ++ d : CdPair).setWidth 64) ∧
        exec .ksLoad s = .next { s with c := some c, d := some d, rk := Vector.replicate 16 none,
                                        status := { s.status with ksLoaded := true, ksCnt := 0 } }) ∧
    (s.status.blkActive = true → exec .ksLoad s = .next (s.faulted .blkSequence))

/-- R151, R155: KS_STEP rotates C and D by the printed amount of step `KS_CNT + 1`, extracts that step's round key by PC2
and counts; its three faults come in the order of the rule. -/
def Obligations.KsStepTakesTheNextStep : Prop :=
  encode .ksStep = 0x3100 ∧
  ∀ s : State, s.status.err = false →
    (∀ (n : Fin 16) (c d : CdHalf), s.status.blkActive = false → s.status.ksLoaded = true →
      s.status.ksCnt.val = n.val → s.c = some c → s.d = some d →
      ∃ (c' d' : CdHalf) (k : RoundKey),
        RotatesTo (printedShifts.getD n.val 0) c c' ∧ RotatesTo (printedShifts.getD n.val 0) d d' ∧
        PermutesTo 48 56 s.tables.pc2 ((c' ++ d' : CdPair).setWidth 64) (k.setWidth 64) ∧
        exec .ksStep s = .next { s with c := some c', d := some d', rk := s.rk.set n.val (some k),
                                        status := { s.status with ksCnt := n.succ } }) ∧
    (s.status.blkActive = true → exec .ksStep s = .next (s.faulted .blkSequence)) ∧
    (s.status.blkActive = false → s.status.ksLoaded = false → exec .ksStep s = .next (s.faulted .ksNotLoaded)) ∧
    (s.status.blkActive = false → s.status.ksLoaded = true → s.status.ksCnt = 16 →
      exec .ksStep s = .next (s.faulted .ksOverrun))

/-- R150, R152, R156: KS_GEN makes all 16 round keys by cumulative rotation from C0 and D0, ends with C and D at C0 and
D0, and counts 16; while a block is in flight it raises BLK_SEQUENCE. That the rotated halves come back to C0 and D0 is
the spec's own inference ("after the 16th step, C and D equal C0 and D0 again", R154). -/
def Obligations.KsGenMakesTheWholeSchedule : Prop :=
  encode .ksGen = 0x3200 ∧
  ∀ s : State, s.status.err = false →
    (s.status.blkActive = false →
      ∃ (cs ds : Nat → CdHalf) (ks : Vector RoundKey 16),
        PermutesTo 56 64 s.tables.pc1 s.port.din ((cs 0 ++ ds 0 : CdPair).setWidth 64) ∧
        (∀ i, i < 16 → RotatesTo (printedShifts.getD i 0) (cs i) (cs (i + 1)) ∧
          RotatesTo (printedShifts.getD i 0) (ds i) (ds (i + 1))) ∧
        (∀ i : Fin 16, PermutesTo 48 56 s.tables.pc2 ((cs (i.val + 1) ++ ds (i.val + 1) : CdPair).setWidth 64)
          (ks[i.val].setWidth 64)) ∧
        cs 16 = cs 0 ∧ ds 16 = ds 0 ∧
        ∃ u, exec .ksGen s = .next u ∧ (∀ i : Fin 16, u.rk[i.val] = some ks[i.val]) ∧
          u = { s with c := some (cs 0), d := some (ds 0), rk := u.rk,
                       status := { s.status with ksLoaded := true, ksCnt := 16 } }) ∧
    (s.status.blkActive = true → exec .ksGen s = .next (s.faulted .blkSequence))

/-- R156, R86: in every state, KS_GEN is KS_LOAD followed by 16 KS_STEP. -/
def Obligations.KsGenEqualsLoadThenSixteenSteps : Prop :=
  ∀ s : State, exec .ksGen s = execAll (.ksLoad :: List.replicate 16 .ksStep) s

/-- R157: CD_READ returns C in bits 55:28 and D in bits 27:0; DOUT alone changes; unloaded it raises KS_NOT_LOADED. -/
def Obligations.CdReadReturnsCAndD : Prop :=
  encode .cdRead = 0x3400 ∧
  ∀ s : State, s.status.err = false →
    (∀ c d : CdHalf, s.status.ksLoaded = true → s.c = some c → s.d = some d →
      ∃ v : Block, exec .cdRead s = .next { s with dout := some v } ∧ v.toNat = c.toNat * 2 ^ 28 + d.toNat) ∧
    (s.status.ksLoaded = false → exec .cdRead s = .next (s.faulted .ksNotLoaded))

/-- R158: RK_READ i returns round key `i`; DOUT alone changes; an unwritten entry raises RK_UNWRITTEN, which under R29
means `i > KS_CNT`. -/
def Obligations.RkReadReturnsTheIndexedKey : Prop :=
  ∀ ii : Fin 16, encode (.rkRead ii) = 0x3300 + BitVec.ofNat 16 ii.val ∧
  ∀ s : State, s.status.err = false →
    (∀ k : RoundKey, s.rk[ii.val] = some k →
      ∃ v : Block, exec (.rkRead ii) s = .next { s with dout := some v } ∧ v.toNat = k.toNat) ∧
    (s.rk[ii.val] = none → exec (.rkRead ii) s = .next (s.faulted .rkUnwritten)) ∧
    (s.Inv → (s.rk[ii.val] = none ↔ s.status.ksCnt.val < ii.val + 1))

/-! ### Round function -/

/-- R180, R183: ROUND_F returns F of the half-block on DIN and the key on KIN, in every sequencer state; DOUT alone
changes; a set bit above 32 raises INVALID_LENGTH. -/
def Obligations.RoundFComputesF : Prop :=
  encode .roundF = 0x4000 ∧
  ∀ s : State, s.status.err = false →
    (s.port.din.toNat < 2 ^ 32 →
      ∃ v, exec .roundF s = .next { s with dout := some v } ∧
        RoundFunctionTo s.tables s.port.din (s.port.kin.setWidth 64) v) ∧
    (2 ^ 32 ≤ s.port.din.toNat → exec .roundF s = .next (s.faulted .invalidLength))

/-- Inverting every bit of the half-block and of the key leaves F unchanged, for every table instance. The spec marks it
as derived from R180 ("`F(not r, not k) = F(r, k)`", R182). -/
def Obligations.RoundFunctionComplementation : Prop :=
  ∀ (T : AdmittedTables) (r : HalfBlock) (k : RoundKey), roundFunction T (~~~r) (~~~k) = roundFunction T r k

/-! ### Feistel network -/

/-- R202, R203: the two ways to open a block, with IP and without, when none is in flight and all keys exist; else
BLK_SEQUENCE, then KS_INCOMPLETE. -/
def Obligations.StartCommandsOpenABlock : Prop :=
  encode .fnStartEnc = 0x5000 ∧ encode .fnStartDec = 0x5100 ∧
  ∀ s : State, s.status.err = false →
    (s.status.blkActive = false → s.status.ksCnt = 16 →
      (∃ l r : HalfBlock, PermutesTo 64 64 s.tables.ip s.port.din (l ++ r : Block) ∧
        exec .fnStartEnc s = .next { s with l := some l, r := some r,
                                            status := { s.status with blkActive := true, blkDir := .encrypt, blkCnt := 0 } }) ∧
      (∃ l r : HalfBlock, s.port.din = (l ++ r : Block) ∧
        exec .fnStartDec s = .next { s with l := some l, r := some r,
                                            status := { s.status with blkActive := true, blkDir := .decrypt, blkCnt := 0 } })) ∧
    (s.status.blkActive = true →
      exec .fnStartEnc s = .next (s.faulted .blkSequence) ∧ exec .fnStartDec s = .next (s.faulted .blkSequence)) ∧
    (s.status.blkActive = false → s.status.ksCnt ≠ 16 →
      exec .fnStartEnc s = .next (s.faulted .ksIncomplete) ∧ exec .fnStartDec s = .next (s.faulted .ksIncomplete))

/-- R204: FN_ROUND does one round with RK[BLK_CNT + 1] when encrypting and RK[16 - BLK_CNT] when decrypting, and counts
it; with no block, or after 16 rounds, it raises BLK_SEQUENCE. -/
def Obligations.FnRoundDoesOneRound : Prop :=
  encode .fnRound = 0x5200 ∧
  ∀ s : State, s.status.err = false →
    (∀ (n : Fin 16) (l r : HalfBlock) (k : RoundKey), s.status.blkActive = true → s.status.blkCnt.val = n.val →
      s.l = some l → s.r = some r →
      (s.status.blkDir = .encrypt → s.rk[n.val] = some k) →
      (s.status.blkDir = .decrypt → s.rk[15 - n.val] = some k) →
      ∃ l' r' : HalfBlock, RoundTo s.tables k l r l' r' ∧
        exec .fnRound s = .next { s with l := some l', r := some r',
                                         status := { s.status with blkCnt := n.succ } }) ∧
    (s.status.blkActive = false → exec .fnRound s = .next (s.faulted .blkSequence)) ∧
    (s.status.blkActive = true → s.status.blkCnt = 16 → exec .fnRound s = .next (s.faulted .blkSequence))

/-- R205: FN_FINISH returns R ‖ L when encrypting and IIP of R ‖ L when decrypting, clears the block fields and keeps L
and R; with no block, or before 16 rounds, it raises BLK_SEQUENCE. -/
def Obligations.FnFinishSwapsAndClosesTheBlock : Prop :=
  encode .fnFinish = 0x5300 ∧
  ∀ s : State, s.status.err = false →
    (∀ l r : HalfBlock, s.status.blkActive = true → s.status.blkCnt = 16 → s.l = some l → s.r = some r →
      ∃ v, (s.status.blkDir = .encrypt → v = (r ++ l : Block)) ∧
        (s.status.blkDir = .decrypt → PermutesTo 64 64 s.tables.iip (r ++ l : Block) v) ∧
        exec .fnFinish s = .next { s with dout := some v,
                                          status := { s.status with blkActive := false, blkDir := .encrypt, blkCnt := 0 } }) ∧
    (s.status.blkActive = false → exec .fnFinish s = .next (s.faulted .blkSequence)) ∧
    (s.status.blkActive = true → s.status.blkCnt ≠ 16 → exec .fnFinish s = .next (s.faulted .blkSequence))

/-- R206: LR_READ returns L ‖ R; DOUT alone changes; before any block it raises BLK_SEQUENCE. -/
def Obligations.LrReadReturnsLAndR : Prop :=
  encode .lrRead = 0x5600 ∧
  ∀ s : State, s.status.err = false →
    (∀ l r : HalfBlock, s.l = some l → s.r = some r →
      ∃ v : Block, exec .lrRead s = .next { s with dout := some v } ∧ v.toNat = l.toNat * 2 ^ 32 + r.toNat) ∧
    (s.l = none → exec .lrRead s = .next (s.faulted .blkSequence))

/-- R200, R207: ENC_BLOCK applies IP, 16 rounds with RK[1] to RK[16], and returns R ‖ L with no further permutation; L
and R keep the halves after round 16; STATUS does not change. Its faults are those of FN_START_ENC. -/
def Obligations.EncBlockRunsSixteenRounds : Prop :=
  encode .encBlock = 0x5400 ∧
  ∀ s : State, s.status.err = false →
    (∀ ks : Vector RoundKey 16, s.status.blkActive = false → s.status.ksCnt = 16 →
      (∀ i : Fin 16, s.rk[i.val] = some ks[i.val]) →
      ∃ ls rs : Nat → HalfBlock, PermutesTo 64 64 s.tables.ip s.port.din (ls 0 ++ rs 0 : Block) ∧
        (∀ i : Fin 16, RoundTo s.tables ks[i.val] (ls i.val) (rs i.val) (ls (i.val + 1)) (rs (i.val + 1))) ∧
        exec .encBlock s = .next { s with l := some (ls 16), r := some (rs 16),
                                          dout := some (rs 16 ++ ls 16 : Block) }) ∧
    (s.status.blkActive = true → exec .encBlock s = .next (s.faulted .blkSequence)) ∧
    (s.status.blkActive = false → s.status.ksCnt ≠ 16 → exec .encBlock s = .next (s.faulted .ksIncomplete))

/-- R201, R208: DEC_BLOCK takes DIN as L ‖ R with no permutation, runs 16 rounds with RK[16] down to RK[1], and returns
IIP of R ‖ L; L and R keep the halves before the swap; STATUS does not change. Its faults are those of FN_START_DEC. -/
def Obligations.DecBlockRunsSixteenRoundsBackwards : Prop :=
  encode .decBlock = 0x5500 ∧
  ∀ s : State, s.status.err = false →
    (∀ ks : Vector RoundKey 16, s.status.blkActive = false → s.status.ksCnt = 16 →
      (∀ i : Fin 16, s.rk[i.val] = some ks[i.val]) →
      ∃ (ls rs : Nat → HalfBlock) (v : Block), s.port.din = (ls 0 ++ rs 0 : Block) ∧
        (∀ i : Fin 16, RoundTo s.tables ks[15 - i.val] (ls i.val) (rs i.val) (ls (i.val + 1)) (rs (i.val + 1))) ∧
        PermutesTo 64 64 s.tables.iip (rs 16 ++ ls 16 : Block) v ∧
        exec .decBlock s = .next { s with l := some (ls 16), r := some (rs 16), dout := some v }) ∧
    (s.status.blkActive = true → exec .decBlock s = .next (s.faulted .blkSequence)) ∧
    (s.status.blkActive = false → s.status.ksCnt ≠ 16 → exec .decBlock s = .next (s.faulted .ksIncomplete))

/-- R207, R86: in every state that meets the invariants of R29, ENC_BLOCK is FN_START_ENC, 16 FN_ROUND and FN_FINISH. -/
def Obligations.EncBlockEqualsStepwiseEncryption : Prop :=
  ∀ s : State, s.Inv →
    exec .encBlock s = execAll (.fnStartEnc :: (List.replicate 16 .fnRound ++ [.fnFinish])) s

/-- R208, R86: in every state that meets the invariants of R29, DEC_BLOCK is FN_START_DEC, 16 FN_ROUND and FN_FINISH. -/
def Obligations.DecBlockEqualsStepwiseDecryption : Prop :=
  ∀ s : State, s.Inv →
    exec .decBlock s = execAll (.fnStartDec :: (List.replicate 16 .fnRound ++ [.fnFinish])) s

/-- R209: Decrypt inverts Encrypt and Encrypt inverts Decrypt, for every admitted table instance and every sequence of
round keys. -/
def Obligations.DecryptInvertsEncrypt : Prop :=
  ∀ (T : AdmittedTables) (ks : List RoundKey) (x : Block),
    decrypt T ks (encrypt T ks x) = x ∧ encrypt T ks (decrypt T ks x) = x

/-- R209, R283, R293 on the ports: from any running state with no block in flight, KS_GEN of a key, ENC_BLOCK of a block
and DEC_BLOCK of what ENC_BLOCK returned give the block back in DOUT, and no fault is recorded. That the host's
transactions stand in a list is the model's choice (log 2). -/
def Obligations.KeyEncryptDecryptReturnsTheBlock : Prop :=
  ∀ (s : State) (key x : Block) (a b c : RoundKey), s.status.err = false → s.status.blkActive = false →
    ∃ (y : Block) (t u : State),
      Host.Core.run Sys2Proof.core 2
        { s with inbox := [issue 0x3200 key a, issue 0x5400 x b] } = .next t ∧
      t.dout = some y ∧ t.status.err = false ∧
      Host.Core.run Sys2Proof.core 3
        { s with inbox := [issue 0x3200 key a, issue 0x5400 x b, issue 0x5500 y c] } = .next u ∧
      u.dout = some x ∧ u.status.err = false

/-- R210: under DES_STANDARD, Encrypt is IP of the standard DES ciphertext, and Decrypt is standard DES decryption of
IIP of its input. `standardDes` is from general knowledge, as the spec marks it (log 17). -/
def Obligations.EngineOutputIsDesBeforeItsFinalPermutation : Prop :=
  ∀ (key : RawKey) (x y : Block),
    let ks := (keySchedule desStandard key).toList
    encrypt desStandard ks x = permute 64 desStandard.ip (standardDes ks x) ∧
    standardDes ks x = permute 64 desStandard.iip (encrypt desStandard ks x) ∧
    decrypt desStandard ks y = standardDes ks.reverse (permute 64 desStandard.iip y)

/-- What ENC_BLOCK and DEC_BLOCK return depends on the tables, the round keys and DIN alone: not on L, R, C, D, DOUT or
KIN. The spec marks it as derived ("The result of ENC_BLOCK or DEC_BLOCK depends only on DIN and `RK[1..16]`", R211). -/
def Obligations.BlockResultDependsOnlyOnKeysAndDin : Prop :=
  ∀ s s' : State, s.Inv → s'.Inv → s.status.err = false → s'.status.err = false →
    s.status.blkActive = false → s'.status.blkActive = false → s.status.ksCnt = 16 → s'.status.ksCnt = 16 →
    s.tables = s'.tables → s.rk = s'.rk → s.port.din = s'.port.din →
    (∃ u u' v, exec .encBlock s = .next u ∧ exec .encBlock s' = .next u' ∧ u.dout = some v ∧ u'.dout = some v) ∧
    (∃ u u' v, exec .decBlock s = .next u ∧ exec .decBlock s' = .next u' ∧ u.dout = some v ∧ u'.dout = some v)

/-! ### The whole machine -/

/-- Every step keeps the seven invariants of R29 ("These invariants hold after reset and after every command", which the
spec marks as derived). -/
def Obligations.EveryStepKeepsTheInvariants : Prop :=
  ∀ s u : State, s.Inv → step s = .next u → u.Inv

/-- The seven invariants of R29 hold after reset (the same sentence, marked as derived). -/
def Obligations.InvariantsHoldAtReset : Prop := State.reset.Inv

/-- R23: from a state that meets the invariants, every step answers a next state: no register that holds `none` is read
as a value, whatever the host does. The stop this rules out is the model's own (log 6). An engine with nothing to take,
because the host does nothing or a halted engine is stuck for all that comes (R243, U8), answers its own state unchanged,
which counts as a next state by the model's reading (logs 2 and 5). -/
def Obligations.EveryStepFromTheInvariantsCompletes : Prop :=
  ∀ s : State, s.Inv → ∃ u, step s = .next u

/-- R292: every step keeps C, D and the round keys on one schedule: no host can mix rotation states. -/
def Obligations.EveryStepKeepsOneSchedule : Prop :=
  ∀ s u : State, s.OneSchedule → step s = .next u → u.OneSchedule

/-- R292: there is no schedule to mix at reset. -/
def Obligations.OneScheduleHoldsAtReset : Prop := State.reset.OneSchedule

/-- R291: while a block is in flight, no command changes C, D or a round key, and KS_LOAD, KS_STEP and KS_GEN raise
BLK_SEQUENCE. -/
def Obligations.NoKeyChangeInTheMiddleOfABlock : Prop :=
  ∀ s : State, s.status.blkActive = true →
    (∀ (u : State), step s = .next u → ¬ s.resetNext → u.c = s.c ∧ u.d = s.d ∧ u.rk = s.rk) ∧
    (s.status.err = false → exec .ksLoad s = .next (s.faulted .blkSequence) ∧
      exec .ksStep s = .next (s.faulted .blkSequence) ∧ exec .ksGen s = .next (s.faulted .blkSequence))

/-- R20, R52: no step, reset included, changes a table. -/
def Obligations.NoStepChangesTheTables : Prop :=
  ∀ s u : State, step s = .next u → u.tables = s.tables

/-- R22, R25, R28: each register and STATUS field is changed only by the commands the tables name, and a command leaves
the host's side alone. -/
def Obligations.OnlyTheNamedCommandsWriteEachRegister : Prop :=
  ∀ (i : Instr) (s u : State), exec i s = .next u →
    u.tables = s.tables ∧ u.port = s.port ∧ u.inbox = s.inbox ∧
    ((u.c ≠ s.c ∨ u.d ≠ s.d ∨ u.rk ≠ s.rk ∨ u.status.ksCnt ≠ s.status.ksCnt) → i = .ksLoad ∨ i = .ksStep ∨ i = .ksGen) ∧
    (u.status.ksLoaded ≠ s.status.ksLoaded → i = .ksLoad ∨ i = .ksGen) ∧
    ((u.l ≠ s.l ∨ u.r ≠ s.r) →
      i = .fnStartEnc ∨ i = .fnStartDec ∨ i = .fnRound ∨ i = .encBlock ∨ i = .decBlock) ∧
    ((u.status.blkActive ≠ s.status.blkActive ∨ u.status.blkDir ≠ s.status.blkDir) →
      i = .fnStartEnc ∨ i = .fnStartDec ∨ i = .fnFinish) ∧
    (u.status.blkCnt ≠ s.status.blkCnt → i = .fnStartEnc ∨ i = .fnStartDec ∨ i = .fnRound ∨ i = .fnFinish) ∧
    ((i = .nop ∨ i = .ksLoad ∨ i = .ksStep ∨ i = .ksGen ∨ i = .fnStartEnc ∨ i = .fnStartDec ∨ i = .fnRound) →
      u.status.err = s.status.err → u.dout = s.dout)

/-- R24: how a command may move a counter: KS_CNT to 0, to 16 or up by one; BLK_CNT to 0 or up by one. -/
def Obligations.CountersMoveOneStepAtATime : Prop :=
  ∀ (i : Instr) (s u : State), exec i s = .next u →
    (u.status.ksCnt = s.status.ksCnt ∨ i = .ksLoad ∧ u.status.ksCnt = 0 ∨ i = .ksGen ∧ u.status.ksCnt = 16 ∨
      i = .ksStep ∧ u.status.ksCnt.val = s.status.ksCnt.val + 1) ∧
    (u.status.blkCnt = s.status.blkCnt ∨ (i = .fnStartEnc ∨ i = .fnStartDec ∨ i = .fnFinish) ∧ u.status.blkCnt = 0 ∨
      i = .fnRound ∧ u.status.blkCnt.val = s.status.blkCnt.val + 1)

/-- R28: a round key, once written, keeps its value until KS_LOAD or KS_GEN or reset, in every state that meets the
invariants of R29. -/
def Obligations.RoundKeysStayUntilANewSchedule : Prop :=
  ∀ (i : Instr) (s u : State) (n : Fin 16) (k : RoundKey), s.Inv → exec i s = .next u → s.rk[n.val] = some k →
    i ≠ .ksLoad → i ≠ .ksGen → u.rk[n.val] = some k

/-- R77: KIN has no effect but on ROUND_F, and DIN none on a command that leaves it unused. -/
def Obligations.UnusedPortsHaveNoEffect : Prop :=
  ∀ (i : Instr) (s : State) (din : Block) (kin : RoundKey),
    (i ≠ .roundF →
      exec i { s with port := { s.port with kin := kin } } =
        onNext (fun u => { u with port := { u.port with kin := kin } }) (exec i s)) ∧
    (leavesDinUnused i = true →
      exec i { s with port := { s.port with din := din } } =
        onNext (fun u => { u with port := { u.port with din := din } }) (exec i s))
end

