-- ==== Sys2Proof/Laws/Bits.lean ====
section
/-! SUPPORT. Bit positions of the datapath's primitives: `permute`, `rotl`, the half-block slices and `sixteen`. -/

namespace Sys2Proof.Machine

theorem pos_eq_getLsbD {n : Nat} (v : BitVec n) {p : Nat} (h1 : 1 ≤ p) (h2 : p ≤ n) : pos v p = v.getLsbD (n - p) := by
  simp only [pos, BitVec.getMsbD_eq_getLsbD]
  rw [show n - 1 - (p - 1) = n - p by omega]
  simp [show p - 1 < n by omega]

/-- R101: position `p` of the output is position `table[p]` of the input. -/
theorem pos_permute {n len : Nat} {table : List Nat} (v : BitVec n) (hl : table.length = len) {p : Nat} (h1 : 1 ≤ p)
    (h2 : p ≤ len) : pos (permute len table v) p = pos v (table.getD (p - 1) 0) := by
  subst hl
  have h : p - 1 < table.length := by omega
  simp [pos, permute, BitVec.getMsbD_setWidth, BitVec.getMsbD_ofBoolListBE, h]

/-- A table's entry is in the range its check asks for. -/
theorem distinctPositions_entry {len max : Nat} {t : List Nat} (h : distinctPositions len max t = true) {j : Nat}
    (hj : j < len) : 1 ≤ t.getD j 0 ∧ t.getD j 0 ≤ max := by
  simp only [distinctPositions, Bool.and_eq_true, beq_iff_eq, List.all_eq_true, decide_eq_true_eq] at h
  obtain ⟨⟨hl, ha⟩, -⟩ := h
  rw [List.getD_eq_getElem t 0 (by omega)]
  exact ha _ (List.getElem_mem _)

theorem distinctPositions_length {len max : Nat} {t : List Nat} (h : distinctPositions len max t = true) :
    t.length = len := by
  simp only [distinctPositions, Bool.and_eq_true, beq_iff_eq] at h
  exact h.1.1

theorem distinctPositions_nodup {len max : Nat} {t : List Nat} (h : distinctPositions len max t = true) : t.Nodup := by
  simp only [distinctPositions, Bool.and_eq_true, decide_eq_true_eq] at h
  exact h.2

theorem getLsbD_rotl (v : CdHalf) (s : Nat) (hs : s ≤ 28) (b : Nat) :
    (rotl v s).getLsbD b = (decide (b < 28) && (if b < s then v.getLsbD (b + 28 - s) else v.getLsbD (b - s))) := by
  simp only [rotl, BitVec.getLsbD_or, BitVec.getLsbD_shiftLeft, BitVec.getLsbD_ushiftRight]
  by_cases hb : b < 28 <;> by_cases hbs : b < s <;> simp [hb, hbs]
  · rw [show 28 - s + b = b + 28 - s by omega]
  · intro h
    exact absurd (BitVec.lt_of_getLsbD h) (by omega)
  · exact BitVec.getLsbD_of_ge _ _ (by omega)
  · exact BitVec.getLsbD_of_ge _ _ (by omega)

/-- A bit of C ‖ D (R9). -/
theorem getLsbD_cd (c d : CdHalf) (i : Nat) :
    (c ++ d : CdPair).getLsbD i = if i < 28 then d.getLsbD i else c.getLsbD (i - 28) := by
  have h := @BitVec.getLsbD_append 28 28 i c d
  by_cases hi : i < 28 <;> simpa [hi] using h

/-- A bit of L ‖ R (R9). -/
theorem getLsbD_lr (l r : HalfBlock) (i : Nat) :
    (l ++ r : Block).getLsbD i = if i < 32 then r.getLsbD i else l.getLsbD (i - 32) := by
  have h := @BitVec.getLsbD_append 32 32 i l r
  by_cases hi : i < 32 <;> simpa [hi] using h

@[simp] theorem upper28_append (c d : CdHalf) : upper28 (c ++ d : CdPair) = c := by
  apply BitVec.eq_of_getLsbD_eq
  intro i hi
  rw [upper28, BitVec.getLsbD_extractLsb', getLsbD_cd]
  simp [hi, show ¬ 28 + i < 28 by omega]

@[simp] theorem lower28_append (c d : CdHalf) : lower28 (c ++ d : CdPair) = d := by
  apply BitVec.eq_of_getLsbD_eq
  intro i hi
  rw [lower28, BitVec.getLsbD_extractLsb', getLsbD_cd]
  simp [hi]

@[simp] theorem upper28_append_lower28 (v : CdPair) : (upper28 v ++ lower28 v : CdPair) = v := by
  apply BitVec.eq_of_getLsbD_eq
  intro i hi
  rw [getLsbD_cd, upper28, lower28, BitVec.getLsbD_extractLsb', BitVec.getLsbD_extractLsb']
  by_cases h : i < 28
  · simp [h]
  · simp [h, show 28 + (i - 28) = i by omega, show i - 28 < 28 by omega]

@[simp] theorem upper32_append (l r : HalfBlock) : upper32 (l ++ r : Block) = l := by
  apply BitVec.eq_of_getLsbD_eq
  intro i hi
  rw [upper32, BitVec.getLsbD_extractLsb', getLsbD_lr]
  simp [hi, show ¬ 32 + i < 32 by omega]

@[simp] theorem lower32_append (l r : HalfBlock) : lower32 (l ++ r : Block) = r := by
  apply BitVec.eq_of_getLsbD_eq
  intro i hi
  rw [lower32, BitVec.getLsbD_extractLsb', getLsbD_lr]
  simp [hi]

@[simp] theorem upper32_append_lower32 (v : Block) : (upper32 v ++ lower32 v : Block) = v := by
  apply BitVec.eq_of_getLsbD_eq
  intro i hi
  rw [getLsbD_lr, upper32, lower32, BitVec.getLsbD_extractLsb', BitVec.getLsbD_extractLsb']
  by_cases h : i < 32
  · simp [h]
  · simp [h, show 32 + (i - 32) = i by omega, show i - 32 < 32 by omega]

@[simp] theorem getElem_sixteen {α : Type} (f : Fin 16 → α) (i : Nat) (h : i < 16) : (sixteen f)[i] = f ⟨i, h⟩ := by
  unfold sixteen
  have : i = 0 ∨ i = 1 ∨ i = 2 ∨ i = 3 ∨ i = 4 ∨ i = 5 ∨ i = 6 ∨ i = 7 ∨ i = 8 ∨ i = 9 ∨ i = 10 ∨ i = 11 ∨
    i = 12 ∨ i = 13 ∨ i = 14 ∨ i = 15 := by omega
  rcases this with h | h | h | h | h | h | h | h | h | h | h | h | h | h | h | h <;> subst h <;> rfl

end Sys2Proof.Machine
end

