-- ==== Sys2Proof/Laws/Datapath.lean ====
section
/-! SUPPORT. What the datapath's functions compute, in the bit-by-bit terms of `Safety.lean`, and the facts about an
admitted `TABLES` instance they rest on. -/

namespace Sys2Proof.Machine

/-! ### Admitted tables -/

/-- The seven checks of R102, apart. -/
theorem admitted_parts {T : Tables} (h : T.admitted = true) :
    T.pc1Shape = true ∧ T.pc2Shape = true ∧ T.p32Shape = true ∧ T.ipShape = true ∧ T.e = expansionTable ∧
      T.shifts = shiftSchedule ∧ T.sboxShape = true := by
  simp only [Tables.admitted, Bool.and_eq_true] at h
  obtain ⟨⟨⟨⟨⟨⟨h1, h2⟩, h3⟩, h4⟩, h5⟩, h6⟩, h7⟩ := h
  exact ⟨h1, h2, h3, h4, by simpa [Tables.eFixed] using h5, by simpa [Tables.shiftsFixed] using h6, h7⟩

variable (T : AdmittedTables)

theorem pc1_shape : distinctPositions 56 64 T.pc1 = true := (admitted_parts T.ok).1
theorem pc2_shape : distinctPositions 48 56 T.pc2 = true := (admitted_parts T.ok).2.1
theorem p32_shape : distinctPositions 32 32 T.p32 = true := (admitted_parts T.ok).2.2.1
theorem ip_shape : distinctPositions 64 64 T.ip = true := (admitted_parts T.ok).2.2.2.1

theorem e_length : T.e.length = 48 := by
  rw [(admitted_parts T.ok).2.2.2.2.1]
  rfl

theorem e_entry (j : Nat) (hj : j < 48) : 1 ≤ T.e.getD j 0 ∧ T.e.getD j 0 ≤ 32 := by
  rw [(admitted_parts T.ok).2.2.2.2.1]
  revert j
  decide

/-- Every position of a block is an entry of IP. -/
theorem ip_mem {p : Nat} (h1 : 1 ≤ p) (h2 : p ≤ 64) : p ∈ T.ip := by
  have h := ip_shape T
  have hs : T.ip.toFinset = Finset.Icc 1 64 := by
    apply Finset.eq_of_subset_of_card_le
    · intro x hx
      rw [List.mem_toFinset, List.mem_iff_getElem] at hx
      obtain ⟨i, hi, rfl⟩ := hx
      have hr := distinctPositions_entry h (j := i) (by rw [distinctPositions_length h] at hi; exact hi)
      rw [List.getD_eq_getElem _ _ hi] at hr
      simpa using hr
    · rw [List.toFinset_card_of_nodup (distinctPositions_nodup h), distinctPositions_length h]
      simp
  rw [← List.mem_toFinset, hs, Finset.mem_Icc]
  exact ⟨h1, h2⟩

theorem iip_length : T.iip.length = 64 := by simp [Tables.iip, inverseTable]

/-- R104: entry `p + 1` of IIP is the place of `p + 1` in IP. -/
theorem iip_getD {p : Nat} (h : p < 64) : T.iip.getD p 0 = T.ip.idxOf (p + 1) + 1 := by
  rw [List.getD_eq_getElem _ _ (by simp [iip_length, h])]
  simp [Tables.iip, inverseTable]

theorem iip_entry (j : Nat) (hj : j < 64) : 1 ≤ T.iip.getD j 0 ∧ T.iip.getD j 0 ≤ 64 := by
  rw [iip_getD T hj]
  have h := List.idxOf_lt_length_of_mem (ip_mem T (p := j + 1) (by omega) (by omega))
  rw [distinctPositions_length (ip_shape T)] at h
  omega

theorem shiftAt_eq (i : Nat) : shiftAt T i = printedShifts.getD i 0 := by
  unfold shiftAt
  rw [(admitted_parts T.ok).2.2.2.2.2.1]
  rfl

theorem shiftAt_le (i : Nat) : shiftAt T i ≤ 28 := by
  rw [shiftAt_eq]
  by_cases h : i < 16
  · revert i
    decide
  · rw [List.getD_eq_default _ _ (by simp [printedShifts]; omega)]
    omega

/-! ### Permutations -/

theorem eq_of_pos {n : Nat} {a b : BitVec n} (h : ∀ p, 1 ≤ p → p ≤ n → pos a p = pos b p) : a = b := by
  apply BitVec.eq_of_getLsbD_eq
  intro i hi
  have h' := h (n - i) (by omega) (by omega)
  rw [pos_eq_getLsbD _ (by omega) (by omega), pos_eq_getLsbD _ (by omega) (by omega)] at h'
  rwa [show n - (n - i) = i by omega] at h'

/-- R101 at the ports: what `permute` computes on the low field of `din`. -/
theorem permutesTo_permute {n len : Nat} {table : List Nat} {din : Block} (v : BitVec n)
    (hv : ∀ b, b < n → v.getLsbD b = din.getLsbD b) (hl : table.length = len)
    (he : ∀ j, j < len → 1 ≤ table.getD j 0 ∧ table.getD j 0 ≤ n) (h64 : len ≤ 64) :
    PermutesTo len n table din ((permute len table v).setWidth 64) := by
  constructor
  · intro p h1 h2
    obtain ⟨ha, hb⟩ := he (p - 1) (by omega)
    rw [BitVec.getLsbD_setWidth, ← pos_eq_getLsbD _ h1 h2, pos_permute v hl h1 h2, pos_eq_getLsbD v ha hb,
      hv _ (by omega)]
    simp
    omega
  · intro b hb
    rw [BitVec.getLsbD_setWidth, BitVec.getLsbD_of_ge _ _ hb]
    simp

theorem getLsbD_din_field (din : Block) (n : Nat) : ∀ b, b < n → (din.setWidth n).getLsbD b = din.getLsbD b := by
  intro b hb
  simp [hb]

theorem getLsbD_zext {n : Nat} (v : BitVec n) (hn : n ≤ 64) :
    ∀ b, b < n → v.getLsbD b = (v.setWidth 64).getLsbD b := by
  intro b hb
  simp
  omega

/-! ### S-boxes -/

theorem sboxEntry_lt (kk j : Nat) : sboxEntry T kk j < 16 := by
  have h := (admitted_parts T.ok).2.2.2.2.2.2
  simp only [Tables.sboxShape, Bool.and_eq_true, beq_iff_eq, List.all_eq_true, decide_eq_true_eq] at h
  unfold sboxEntry
  by_cases hk : kk < T.sboxes.length
  · rw [List.getD_eq_getElem _ _ hk]
    by_cases hj : j < T.sboxes[kk].length
    · rw [List.getD_eq_getElem _ _ hj]
      exact (h.2 _ (List.getElem_mem hk)).2 _ (List.getElem_mem hj)
    · rw [List.getD_eq_default _ _ (Nat.le_of_not_lt hj)]
      omega
  · rw [List.getD_eq_default _ _ (Nat.le_of_not_lt hk)]
    simp

theorem sboxLookup_toNat (kk : Nat) (g : BitVec 6) : (sboxLookup T kk g).toNat = sboxValue T kk g := by
  have h := sboxEntry_lt T kk (sboxIndex g)
  rw [sboxLookup, BitVec.toNat_ofNat, Nat.mod_eq_of_lt h]
  unfold sboxEntry sboxIndex sboxValue
  congr 3

/-! ### Rotation -/

/-- R151. -/
theorem rotatesTo_rotl (v : CdHalf) {s : Nat} (hs : s ≤ 28) : RotatesTo s v (rotl v s) := by
  intro p h1 h2
  rw [getLsbD_rotl v s hs]
  simp only [show 28 - p < 28 by omega, decide_true, Bool.true_and]
  split
  · have h : (p - 1 + s) % 28 = p - 1 + s - 28 := by
      rw [Nat.mod_eq_sub_mod (by omega)]
      apply Nat.mod_eq_of_lt
      omega
    congr 1
    omega
  · have h : (p - 1 + s) % 28 = p - 1 + s := Nat.mod_eq_of_lt (by omega)
    congr 1
    omega

theorem rotl_rotl (v : CdHalf) {a b : Nat} (h : a + b ≤ 28) : rotl (rotl v a) b = rotl v (a + b) := by
  apply BitVec.eq_of_getLsbD_eq
  intro i hi
  rw [getLsbD_rotl _ b (by omega), getLsbD_rotl v a (by omega), getLsbD_rotl v a (by omega), getLsbD_rotl v _ h]
  by_cases h1 : i < b
  · simp only [hi, h1, show i + 28 - b < 28 by omega, show ¬ i + 28 - b < a by omega, show i < a + b by omega, if_true,
      if_false, decide_true, Bool.true_and]
    congr 1
    omega
  · by_cases h2 : i - b < a
    · simp only [hi, h1, show i - b < 28 by omega, h2, show i < a + b by omega, if_true, if_false, decide_true,
        Bool.true_and]
      congr 1
      omega
    · simp only [hi, h1, show i - b < 28 by omega, h2, show ¬ i < a + b by omega, if_false, decide_true, Bool.true_and]
      congr 1
      omega

/-! ### Concatenation and rounds -/

/-- R9 as numbers. -/
theorem toNat_concat {a b : Nat} (x : BitVec a) (y : BitVec b) : (x ++ y).toNat = x.toNat * 2 ^ b + y.toNat := by
  rw [BitVec.toNat_append, Nat.shiftLeft_eq, Nat.mul_comm, Nat.two_pow_add_eq_or_of_lt y.isLt, Nat.mul_comm]

theorem splitBlock_swapJoin (lr : HalfBlock × HalfBlock) : splitBlock (swapJoin lr) = lr.swap := by
  simp [splitBlock, swapJoin, Prod.swap]

theorem swapJoin_splitBlock (x : Block) : swapJoin (splitBlock x).swap = x := by simp [splitBlock, swapJoin]

theorem feistelRounds_append (ks : List RoundKey) (k : RoundKey) (lr : HalfBlock × HalfBlock) :
    feistelRounds T (ks ++ [k]) lr = feistelRound T (feistelRounds T ks lr) k := by
  simp [feistelRounds]

end Sys2Proof.Machine
end

