-- ==== Sys2Proof/Laws/State.lean ====
section
/-! SUPPORT. One lemma per field of State per named update: what the update leaves in the field. All are true by `rfl`
and tagged simp, so that no proof unfolds a record update. -/

namespace Sys2Proof.Machine.State

variable (s : State)

/-! ### setDout -/

@[simp] theorem setDout_tables (v : Block) : (s.setDout v).tables = s.tables := rfl
@[simp] theorem setDout_c (v : Block) : (s.setDout v).c = s.c := rfl
@[simp] theorem setDout_d (v : Block) : (s.setDout v).d = s.d := rfl
@[simp] theorem setDout_rk (v : Block) : (s.setDout v).rk = s.rk := rfl
@[simp] theorem setDout_l (v : Block) : (s.setDout v).l = s.l := rfl
@[simp] theorem setDout_r (v : Block) : (s.setDout v).r = s.r := rfl
@[simp] theorem setDout_dout (v : Block) : (s.setDout v).dout = some v := rfl
@[simp] theorem setDout_status (v : Block) : (s.setDout v).status = s.status := rfl
@[simp] theorem setDout_port (v : Block) : (s.setDout v).port = s.port := rfl
@[simp] theorem setDout_inbox (v : Block) : (s.setDout v).inbox = s.inbox := rfl

/-! ### setCd -/

@[simp] theorem setCd_tables (c d : CdHalf) : (s.setCd c d).tables = s.tables := rfl
@[simp] theorem setCd_c (c d : CdHalf) : (s.setCd c d).c = some c := rfl
@[simp] theorem setCd_d (c d : CdHalf) : (s.setCd c d).d = some d := rfl
@[simp] theorem setCd_rk (c d : CdHalf) : (s.setCd c d).rk = s.rk := rfl
@[simp] theorem setCd_l (c d : CdHalf) : (s.setCd c d).l = s.l := rfl
@[simp] theorem setCd_r (c d : CdHalf) : (s.setCd c d).r = s.r := rfl
@[simp] theorem setCd_dout (c d : CdHalf) : (s.setCd c d).dout = s.dout := rfl
@[simp] theorem setCd_status (c d : CdHalf) : (s.setCd c d).status = s.status := rfl
@[simp] theorem setCd_port (c d : CdHalf) : (s.setCd c d).port = s.port := rfl
@[simp] theorem setCd_inbox (c d : CdHalf) : (s.setCd c d).inbox = s.inbox := rfl

/-! ### setRk -/

@[simp] theorem setRk_tables (i : Fin 16) (k : RoundKey) : (s.setRk i k).tables = s.tables := rfl
@[simp] theorem setRk_c (i : Fin 16) (k : RoundKey) : (s.setRk i k).c = s.c := rfl
@[simp] theorem setRk_d (i : Fin 16) (k : RoundKey) : (s.setRk i k).d = s.d := rfl
@[simp] theorem setRk_rk (i : Fin 16) (k : RoundKey) : (s.setRk i k).rk = s.rk.set i.val (some k) := rfl
@[simp] theorem setRk_l (i : Fin 16) (k : RoundKey) : (s.setRk i k).l = s.l := rfl
@[simp] theorem setRk_r (i : Fin 16) (k : RoundKey) : (s.setRk i k).r = s.r := rfl
@[simp] theorem setRk_dout (i : Fin 16) (k : RoundKey) : (s.setRk i k).dout = s.dout := rfl
@[simp] theorem setRk_status (i : Fin 16) (k : RoundKey) : (s.setRk i k).status = s.status := rfl
@[simp] theorem setRk_port (i : Fin 16) (k : RoundKey) : (s.setRk i k).port = s.port := rfl
@[simp] theorem setRk_inbox (i : Fin 16) (k : RoundKey) : (s.setRk i k).inbox = s.inbox := rfl

/-! ### setRkStore -/

@[simp] theorem setRkStore_tables (rk : Vector (Option RoundKey) 16) : (s.setRkStore rk).tables = s.tables := rfl
@[simp] theorem setRkStore_c (rk : Vector (Option RoundKey) 16) : (s.setRkStore rk).c = s.c := rfl
@[simp] theorem setRkStore_d (rk : Vector (Option RoundKey) 16) : (s.setRkStore rk).d = s.d := rfl
@[simp] theorem setRkStore_rk (rk : Vector (Option RoundKey) 16) : (s.setRkStore rk).rk = rk := rfl
@[simp] theorem setRkStore_l (rk : Vector (Option RoundKey) 16) : (s.setRkStore rk).l = s.l := rfl
@[simp] theorem setRkStore_r (rk : Vector (Option RoundKey) 16) : (s.setRkStore rk).r = s.r := rfl
@[simp] theorem setRkStore_dout (rk : Vector (Option RoundKey) 16) : (s.setRkStore rk).dout = s.dout := rfl
@[simp] theorem setRkStore_status (rk : Vector (Option RoundKey) 16) : (s.setRkStore rk).status = s.status := rfl
@[simp] theorem setRkStore_port (rk : Vector (Option RoundKey) 16) : (s.setRkStore rk).port = s.port := rfl
@[simp] theorem setRkStore_inbox (rk : Vector (Option RoundKey) 16) : (s.setRkStore rk).inbox = s.inbox := rfl

/-! ### setLr -/

@[simp] theorem setLr_tables (l r : HalfBlock) : (s.setLr l r).tables = s.tables := rfl
@[simp] theorem setLr_c (l r : HalfBlock) : (s.setLr l r).c = s.c := rfl
@[simp] theorem setLr_d (l r : HalfBlock) : (s.setLr l r).d = s.d := rfl
@[simp] theorem setLr_rk (l r : HalfBlock) : (s.setLr l r).rk = s.rk := rfl
@[simp] theorem setLr_l (l r : HalfBlock) : (s.setLr l r).l = some l := rfl
@[simp] theorem setLr_r (l r : HalfBlock) : (s.setLr l r).r = some r := rfl
@[simp] theorem setLr_dout (l r : HalfBlock) : (s.setLr l r).dout = s.dout := rfl
@[simp] theorem setLr_status (l r : HalfBlock) : (s.setLr l r).status = s.status := rfl
@[simp] theorem setLr_port (l r : HalfBlock) : (s.setLr l r).port = s.port := rfl
@[simp] theorem setLr_inbox (l r : HalfBlock) : (s.setLr l r).inbox = s.inbox := rfl

/-! ### setKs -/

@[simp] theorem setKs_tables (n : Fin 17) : (s.setKs n).tables = s.tables := rfl
@[simp] theorem setKs_c (n : Fin 17) : (s.setKs n).c = s.c := rfl
@[simp] theorem setKs_d (n : Fin 17) : (s.setKs n).d = s.d := rfl
@[simp] theorem setKs_rk (n : Fin 17) : (s.setKs n).rk = s.rk := rfl
@[simp] theorem setKs_l (n : Fin 17) : (s.setKs n).l = s.l := rfl
@[simp] theorem setKs_r (n : Fin 17) : (s.setKs n).r = s.r := rfl
@[simp] theorem setKs_dout (n : Fin 17) : (s.setKs n).dout = s.dout := rfl
@[simp] theorem setKs_status (n : Fin 17) : (s.setKs n).status = { s.status with ksLoaded := true, ksCnt := n } := rfl
@[simp] theorem setKs_port (n : Fin 17) : (s.setKs n).port = s.port := rfl
@[simp] theorem setKs_inbox (n : Fin 17) : (s.setKs n).inbox = s.inbox := rfl

/-! ### setBlk -/

@[simp] theorem setBlk_tables (a : Bool) (dir : Dir) (n : Fin 17) : (s.setBlk a dir n).tables = s.tables := rfl
@[simp] theorem setBlk_c (a : Bool) (dir : Dir) (n : Fin 17) : (s.setBlk a dir n).c = s.c := rfl
@[simp] theorem setBlk_d (a : Bool) (dir : Dir) (n : Fin 17) : (s.setBlk a dir n).d = s.d := rfl
@[simp] theorem setBlk_rk (a : Bool) (dir : Dir) (n : Fin 17) : (s.setBlk a dir n).rk = s.rk := rfl
@[simp] theorem setBlk_l (a : Bool) (dir : Dir) (n : Fin 17) : (s.setBlk a dir n).l = s.l := rfl
@[simp] theorem setBlk_r (a : Bool) (dir : Dir) (n : Fin 17) : (s.setBlk a dir n).r = s.r := rfl
@[simp] theorem setBlk_dout (a : Bool) (dir : Dir) (n : Fin 17) : (s.setBlk a dir n).dout = s.dout := rfl
@[simp] theorem setBlk_status (a : Bool) (dir : Dir) (n : Fin 17) : (s.setBlk a dir n).status = { s.status with blkActive := a, blkDir := dir, blkCnt := n } := rfl
@[simp] theorem setBlk_port (a : Bool) (dir : Dir) (n : Fin 17) : (s.setBlk a dir n).port = s.port := rfl
@[simp] theorem setBlk_inbox (a : Bool) (dir : Dir) (n : Fin 17) : (s.setBlk a dir n).inbox = s.inbox := rfl

/-! ### enterFault -/

@[simp] theorem enterFault_tables (k : Cause) : (s.enterFault k).tables = s.tables := rfl
@[simp] theorem enterFault_c (k : Cause) : (s.enterFault k).c = s.c := rfl
@[simp] theorem enterFault_d (k : Cause) : (s.enterFault k).d = s.d := rfl
@[simp] theorem enterFault_rk (k : Cause) : (s.enterFault k).rk = s.rk := rfl
@[simp] theorem enterFault_l (k : Cause) : (s.enterFault k).l = s.l := rfl
@[simp] theorem enterFault_r (k : Cause) : (s.enterFault k).r = s.r := rfl
@[simp] theorem enterFault_dout (k : Cause) : (s.enterFault k).dout = none := rfl
@[simp] theorem enterFault_status (k : Cause) : (s.enterFault k).status = { s.status with err := true, cause := some k } := rfl
@[simp] theorem enterFault_port (k : Cause) : (s.enterFault k).port = s.port := rfl
@[simp] theorem enterFault_inbox (k : Cause) : (s.enterFault k).inbox = s.inbox := rfl

/-! ### resetRegisters -/

@[simp] theorem resetRegisters_tables : (s.resetRegisters).tables = s.tables := rfl
@[simp] theorem resetRegisters_c : (s.resetRegisters).c = none := rfl
@[simp] theorem resetRegisters_d : (s.resetRegisters).d = none := rfl
@[simp] theorem resetRegisters_rk : (s.resetRegisters).rk = Vector.replicate 16 none := rfl
@[simp] theorem resetRegisters_l : (s.resetRegisters).l = none := rfl
@[simp] theorem resetRegisters_r : (s.resetRegisters).r = none := rfl
@[simp] theorem resetRegisters_dout : (s.resetRegisters).dout = none := rfl
@[simp] theorem resetRegisters_status : (s.resetRegisters).status = Status.zero := rfl
@[simp] theorem resetRegisters_port : (s.resetRegisters).port = s.port := rfl
@[simp] theorem resetRegisters_inbox : (s.resetRegisters).inbox = s.inbox := rfl

/-! ### present -/

@[simp] theorem present_tables (t : Transaction) (rest : List HostEvent) : (s.present t rest).tables = s.tables := rfl
@[simp] theorem present_c (t : Transaction) (rest : List HostEvent) : (s.present t rest).c = s.c := rfl
@[simp] theorem present_d (t : Transaction) (rest : List HostEvent) : (s.present t rest).d = s.d := rfl
@[simp] theorem present_rk (t : Transaction) (rest : List HostEvent) : (s.present t rest).rk = s.rk := rfl
@[simp] theorem present_l (t : Transaction) (rest : List HostEvent) : (s.present t rest).l = s.l := rfl
@[simp] theorem present_r (t : Transaction) (rest : List HostEvent) : (s.present t rest).r = s.r := rfl
@[simp] theorem present_dout (t : Transaction) (rest : List HostEvent) : (s.present t rest).dout = s.dout := rfl
@[simp] theorem present_status (t : Transaction) (rest : List HostEvent) : (s.present t rest).status = s.status := rfl
@[simp] theorem present_port (t : Transaction) (rest : List HostEvent) : (s.present t rest).port = t := rfl
@[simp] theorem present_inbox (t : Transaction) (rest : List HostEvent) : (s.present t rest).inbox = rest := rfl

end Sys2Proof.Machine.State
end

