-- ==== Sys2Proof/Laws/Ops.lean ====
section
/-! SUPPORT. For each shared operation, once, everything it can do: what is known when it answers a next state, and what
it answers where its condition is known. -/

namespace Sys2Proof.Machine

variable {s u : State} {k : Cause} {go : Result}

theorem unlessHalted_next (h : unlessHalted s go = .next u) :
    (s.status.err = true ∧ u = s) ∨ (s.status.err = false ∧ go = .next u) := by
  unfold unlessHalted at h
  cases he : s.status.err <;> simp_all

@[simp] theorem unlessHalted_running (h : s.status.err = false) : unlessHalted s go = go := by
  simp [unlessHalted, h]

@[simp] theorem unlessHalted_halted (h : s.status.err = true) : unlessHalted s go = .next s := by
  simp [unlessHalted, h]

theorem failIf_next {bad : Bool} (h : failIf bad k s go = .next u) :
    (bad = true ∧ u = s.enterFault k) ∨ (bad = false ∧ go = .next u) := by
  cases bad <;> simp_all [failIf, raise]

@[simp] theorem failIf_false : failIf false k s go = go := rfl

@[simp] theorem failIf_true : failIf true k s go = .next (s.enterFault k) := rfl

theorem failIf_pass {bad : Bool} (h : bad = false) : failIf bad k s go = go := by rw [h]; rfl

theorem failIf_hit {bad : Bool} (h : bad = true) : failIf bad k s go = .next (s.enterFault k) := by rw [h]; rfl

@[simp] theorem raise_eq : raise k s = .next (s.enterFault k) := rfl

theorem withValue_next {α : Type} {r : Option α} {f : α → Result} (h : withValue r f = .next u) :
    ∃ v, r = some v ∧ f v = .next u := by
  cases r with
  | none => cases h
  | some v => exact ⟨v, rfl, h⟩

@[simp] theorem withValue_some {α : Type} (v : α) (f : α → Result) : withValue (some v) f = f v := rfl

theorem complete_next {m : Nat} {v : BitVec m} (h : complete v s = .next u) : u = s.setDout (v.setWidth 64) := by
  cases h
  rfl

@[simp] theorem complete_eq {m : Nat} (v : BitVec m) : complete v s = .next (s.setDout (v.setWidth 64)) := rfl

/-- R76 as a bound on the port's value. -/
theorem dinTooLong_eq (n : Nat) (din : Block) : dinTooLong n din = decide (2 ^ n ≤ din.toNat) := by
  have hd := din.isLt
  unfold dinTooLong
  by_cases hn : n < 64
  · by_cases h : 2 ^ n ≤ din.toNat
    · simp only [hn, h, decide_true, Bool.true_and, bne_iff_ne, ne_eq]
      intro h0
      have := congrArg BitVec.toNat h0
      simp only [BitVec.toNat_ushiftRight, Nat.shiftRight_eq_div_pow] at this
      change _ = 0 at this
      have := (Nat.div_eq_zero_iff).1 this
      have := Nat.two_pow_pos n
      omega
    · have h0 : din >>> n = 0 := by
        apply BitVec.eq_of_toNat_eq
        simp [Nat.shiftRight_eq_div_pow, Nat.div_eq_of_lt (by omega : din.toNat < 2 ^ n)]
      simp [hn, h, h0]
  · have : 2 ^ 64 ≤ 2 ^ n := Nat.pow_le_pow_right (by omega) (by omega)
    simp [hn]
    omega

theorem withDin_next {n : Nat} {f : BitVec n → Result} (h : withDin n s f = .next u) :
    (2 ^ n ≤ s.port.din.toNat ∧ u = s.enterFault .invalidLength) ∨
    (s.port.din.toNat < 2 ^ n ∧ f (s.port.din.setWidth n) = .next u) := by
  rcases failIf_next h with ⟨hb, hu⟩ | ⟨hb, hu⟩
  · exact .inl ⟨by simpa [dinTooLong_eq] using hb, hu⟩
  · exact .inr ⟨by simpa [dinTooLong_eq] using hb, hu⟩

@[simp] theorem withDin_fits {n : Nat} {f : BitVec n → Result} (h : s.port.din.toNat < 2 ^ n) :
    withDin n s f = f (s.port.din.setWidth n) := by
  simp [withDin, dinTooLong_eq, Nat.not_le.2 h]

@[simp] theorem withDin_tooLong {n : Nat} {f : BitVec n → Result} (h : 2 ^ n ≤ s.port.din.toNat) :
    withDin n s f = .next (s.enterFault .invalidLength) := by
  simp [withDin, dinTooLong_eq, h]

/-- A 64-bit operand always fits (R76). -/
@[simp] theorem withDin_whole {f : Block → Result} : withDin 64 s f = f s.port.din := by
  have h := s.port.din.isLt
  rw [withDin_fits h]
  simp

theorem openBlock_next (h : openBlock s go = .next u) :
    (s.status.blkActive = true ∧ u = s.enterFault .blkSequence) ∨
    (s.status.blkActive = false ∧ s.status.ksCnt ≠ 16 ∧ u = s.enterFault .ksIncomplete) ∨
    (s.status.blkActive = false ∧ s.status.ksCnt = 16 ∧ go = .next u) := by
  rcases failIf_next h with ⟨hb, hu⟩ | ⟨hb, hg⟩
  · exact .inl ⟨hb, hu⟩
  · rcases failIf_next hg with ⟨hc, hu⟩ | ⟨hc, hu⟩
    · exact .inr (.inl ⟨hb, by simpa using hc, hu⟩)
    · exact .inr (.inr ⟨hb, by simpa using hc, hu⟩)

@[simp] theorem openBlock_ready (ha : s.status.blkActive = false) (hc : s.status.ksCnt = 16) :
    openBlock s go = go := by
  simp [openBlock, ha, hc]

theorem nextIndex?_some {n : Fin 17} {i : Fin 16} : nextIndex? n = some i ↔ n.val = i.val := by
  unfold nextIndex?
  split
  · simp only [Option.some.injEq, Fin.ext_iff]
  · constructor
    · intro h; cases h
    · intro h; exact absurd i.isLt (by omega)

theorem nextIndex?_none {n : Fin 17} : nextIndex? n = none ↔ n = 16 := by
  unfold nextIndex?
  split
  · rename_i h
    simp only [reduceCtorEq, false_iff]
    intro h'; subst h'; exact absurd h (by decide)
  · rename_i h
    simp only [true_iff, Fin.ext_iff]
    have := n.isLt
    show n.val = 16
    omega

theorem allSome_eq_some {α : Type} {l : List (Option α)} {vs : List α} : allSome l = some vs ↔ l = vs.map some := by
  induction l generalizing vs with
  | nil => cases vs <;> simp [allSome]
  | cons a l ih =>
    cases a with
    | none => cases vs <;> simp [allSome]
    | some a =>
      cases vs with
      | nil => simp [allSome]
      | cons v vs => simp [allSome, ih, and_comm]

theorem allSome_isSome {α : Type} {l : List (Option α)} (h : ∀ a ∈ l, a ≠ none) : ∃ vs, allSome l = some vs := by
  induction l with
  | nil => exact ⟨[], rfl⟩
  | cons a l ih =>
    obtain ⟨vs, hvs⟩ := ih fun b hb => h b (List.mem_cons_of_mem _ hb)
    cases a with
    | none => exact absurd rfl (h none List.mem_cons_self)
    | some a => exact ⟨a :: vs, by simp [allSome, hvs]⟩

/-- ENC_BLOCK and DEC_BLOCK read the store as the list of its values. -/
theorem roundKeys?_of_all {ks : Vector RoundKey 16} (h : ∀ i : Fin 16, s.rk[i.val] = some ks[i.val]) :
    roundKeys? s = some ks.toList := by
  rw [roundKeys?, allSome_eq_some]
  have : s.rk = ks.map some := by
    ext i hi : 1
    rw [h ⟨i, hi⟩]
    simp
  rw [this]
  exact Vector.toList_map

theorem roundKeys?_isSome (h : ∀ i : Fin 16, s.rk[i.val] ≠ none) : ∃ ks, roundKeys? s = some ks := by
  apply allSome_isSome
  intro a ha
  rw [Vector.mem_toList_iff, Vector.mem_iff_getElem] at ha
  obtain ⟨i, hi, rfl⟩ := ha
  exact h ⟨i, hi⟩

/-- Every key list read from the store has one key per entry. -/
theorem roundKeys?_spec {ks : List RoundKey} (h : roundKeys? s = some ks) :
    ks.length = 16 ∧ ∀ (i : Nat) (hi : i < 16) (hk : i < ks.length), s.rk[i] = some ks[i] := by
  rw [roundKeys?, allSome_eq_some] at h
  have hl : ks.length = 16 := by simpa using (congrArg List.length h).symm
  refine ⟨hl, fun i hi hk => ?_⟩
  have : s.rk.toList[i]'(by simpa using hi) = some ks[i] := by simp [h]
  simpa using this

end Sys2Proof.Machine
end

