-- ==== Sys2Proof/Laws/Effect.lean ====
section
/-! SUPPORT. What a command, and a step, can do: one inversion lemma each. A proof about all commands cases on `Effect`
instead of unfolding the meanings. -/

namespace Sys2Proof.Machine

/-- The commands that write DOUT and no other register (R75). -/
def returnsOnly : Instr → Bool
  | .statusRead | .permPc1 | .permPc2 | .permE | .permP | .permIp | .permIip | .sbox _ | .slayer | .rkRead _ => true
  | .cdRead | .roundF | .lrRead => true
  | .nop | .ksLoad | .ksStep | .ksGen | .fnStartEnc | .fnStartDec | .fnRound | .fnFinish | .encBlock | .decBlock => false

/-- The next states command `i` can give from `s`. -/
inductive Effect (s : State) : Instr → State → Prop
  /-- Nothing: NOP, or a halted engine. -/
  | same (i : Instr) (h : i = .nop ∨ s.status.err = true) : Effect s i s
  | fault (i : Instr) (k : Cause) (h : s.status.err = false) : Effect s i (s.enterFault k)
  | result (i : Instr) (v : Block) (h : returnsOnly i = true) (hh : i = .statusRead ∨ s.status.err = false) :
      Effect s i (s.setDout v)
  | ksLoad (h : s.status.err = false) (ha : s.status.blkActive = false) :
      Effect s .ksLoad (((s.setCd (initialHalves s.tables s.port.din).1 (initialHalves s.tables s.port.din).2).setRkStore
        (Vector.replicate 16 none)).setKs 0)
  | ksStep (n : Fin 16) (c d : CdHalf) (h : s.status.err = false) (ha : s.status.blkActive = false)
      (hl : s.status.ksLoaded = true) (hn : s.status.ksCnt.val = n.val) (hc : s.c = some c) (hd : s.d = some d) :
      Effect s .ksStep (((s.setCd (rotateHalves (c, d) (shiftAt s.tables n.val)).1
        (rotateHalves (c, d) (shiftAt s.tables n.val)).2).setRk n
          (extractKey s.tables (rotateHalves (c, d) (shiftAt s.tables n.val)))).setKs n.succ)
  | ksGen (h : s.status.err = false) (ha : s.status.blkActive = false) :
      Effect s .ksGen (((s.setCd (initialHalves s.tables s.port.din).1 (initialHalves s.tables s.port.din).2).setRkStore
        (sixteen fun i => some (keySchedule s.tables s.port.din)[i.val])).setKs 16)
  | fnStart (i : Instr) (l r : HalfBlock) (dir : Dir) (hi : i = .fnStartEnc ∨ i = .fnStartDec)
      (h : s.status.err = false) (ha : s.status.blkActive = false) (hk : s.status.ksCnt = 16) :
      Effect s i ((s.setLr l r).setBlk true dir 0)
  | fnRound (n : Fin 16) (l r : HalfBlock) (h : s.status.err = false) (ha : s.status.blkActive = true)
      (hn : s.status.blkCnt.val = n.val) : Effect s .fnRound ((s.setLr l r).setBlk true s.status.blkDir n.succ)
  | fnFinish (v : Block) (h : s.status.err = false) (ha : s.status.blkActive = true) (hn : s.status.blkCnt = 16) :
      Effect s .fnFinish ((s.setBlk false .encrypt 0).setDout v)
  | block (i : Instr) (l r : HalfBlock) (v : Block) (hi : i = .encBlock ∨ i = .decBlock)
      (h : s.status.err = false) (ha : s.status.blkActive = false) (hk : s.status.ksCnt = 16) :
      Effect s i ((s.setLr l r).setDout v)

variable {s u : State}

theorem Effect.of_permCommand {n len : Nat} {table : List Nat} {i : Instr} (hi : returnsOnly i = true)
    (h : permCommand n len table s = .next u) : Effect s i u := by
  rcases unlessHalted_next h with ⟨he, rfl⟩ | ⟨he, h⟩
  · exact .same i (.inr he)
  rcases withDin_next h with ⟨-, rfl⟩ | ⟨-, h⟩
  · exact .fault i _ he
  rw [complete_next h]
  exact .result i _ hi (.inr he)

theorem Effect.of_withDin {n : Nat} {m : Nat} {f : BitVec n → BitVec m} {i : Instr} (hi : returnsOnly i = true)
    (h : unlessHalted s (withDin n s fun v => complete (f v) s) = .next u) : Effect s i u := by
  rcases unlessHalted_next h with ⟨he, rfl⟩ | ⟨he, h⟩
  · exact .same i (.inr he)
  rcases withDin_next h with ⟨-, rfl⟩ | ⟨-, h⟩
  · exact .fault i _ he
  rw [complete_next h]
  exact .result i _ hi (.inr he)

theorem execKsLoad_effect (h : execKsLoad s = .next u) : Effect s .ksLoad u := by
  rcases unlessHalted_next h with ⟨he, rfl⟩ | ⟨he, h⟩
  · exact .same _ (.inr he)
  rw [withDin_whole] at h
  rcases failIf_next h with ⟨-, rfl⟩ | ⟨ha, h⟩
  · exact .fault _ _ he
  cases h
  exact .ksLoad he ha

theorem execKsStep_effect (h : execKsStep s = .next u) : Effect s .ksStep u := by
  rcases unlessHalted_next h with ⟨he, rfl⟩ | ⟨he, h⟩
  · exact .same _ (.inr he)
  rcases failIf_next h with ⟨-, rfl⟩ | ⟨ha, h⟩
  · exact .fault _ _ he
  rcases failIf_next h with ⟨-, rfl⟩ | ⟨hl, h⟩
  · exact .fault _ _ he
  split at h
  · cases h
    exact .fault _ _ he
  · rename_i n hn
    obtain ⟨c, hc, h⟩ := withValue_next h
    obtain ⟨d, hd, h⟩ := withValue_next h
    cases h
    exact .ksStep n c d he ha (by simpa using hl) (nextIndex?_some.1 hn) hc hd

theorem execKsGen_effect (h : execKsGen s = .next u) : Effect s .ksGen u := by
  rcases unlessHalted_next h with ⟨he, rfl⟩ | ⟨he, h⟩
  · exact .same _ (.inr he)
  rw [withDin_whole] at h
  rcases failIf_next h with ⟨-, rfl⟩ | ⟨ha, h⟩
  · exact .fault _ _ he
  cases h
  exact .ksGen he ha

theorem execCdRead_effect (h : execCdRead s = .next u) : Effect s .cdRead u := by
  rcases unlessHalted_next h with ⟨he, rfl⟩ | ⟨he, h⟩
  · exact .same _ (.inr he)
  rcases failIf_next h with ⟨-, rfl⟩ | ⟨-, h⟩
  · exact .fault _ _ he
  obtain ⟨c, -, h⟩ := withValue_next h
  obtain ⟨d, -, h⟩ := withValue_next h
  rw [complete_next h]
  exact .result _ _ rfl (.inr he)

theorem execRkRead_effect {ii : Fin 16} (h : execRkRead ii s = .next u) : Effect s (.rkRead ii) u := by
  rcases unlessHalted_next h with ⟨he, rfl⟩ | ⟨he, h⟩
  · exact .same _ (.inr he)
  split at h
  · cases h
    exact .fault _ _ he
  · rw [complete_next h]
    exact .result _ _ rfl (.inr he)

theorem execFnStartEnc_effect (h : execFnStartEnc s = .next u) : Effect s .fnStartEnc u := by
  rcases unlessHalted_next h with ⟨he, rfl⟩ | ⟨he, h⟩
  · exact .same _ (.inr he)
  rw [withDin_whole] at h
  rcases openBlock_next h with ⟨-, rfl⟩ | ⟨-, -, rfl⟩ | ⟨ha, hk, h⟩
  · exact .fault _ _ he
  · exact .fault _ _ he
  · cases h
    exact .fnStart _ _ _ _ (.inl rfl) he ha hk

theorem execFnStartDec_effect (h : execFnStartDec s = .next u) : Effect s .fnStartDec u := by
  rcases unlessHalted_next h with ⟨he, rfl⟩ | ⟨he, h⟩
  · exact .same _ (.inr he)
  rw [withDin_whole] at h
  rcases openBlock_next h with ⟨-, rfl⟩ | ⟨-, -, rfl⟩ | ⟨ha, hk, h⟩
  · exact .fault _ _ he
  · exact .fault _ _ he
  · cases h
    exact .fnStart _ _ _ _ (.inr rfl) he ha hk

theorem execFnRound_effect (h : execFnRound s = .next u) : Effect s .fnRound u := by
  rcases unlessHalted_next h with ⟨he, rfl⟩ | ⟨he, h⟩
  · exact .same _ (.inr he)
  rcases failIf_next h with ⟨-, rfl⟩ | ⟨ha, h⟩
  · exact .fault _ _ he
  have ha : s.status.blkActive = true := by simpa using ha
  split at h
  · cases h
    exact .fault _ _ he
  · rename_i n hn
    obtain ⟨l, -, h⟩ := withValue_next h
    obtain ⟨r, -, h⟩ := withValue_next h
    obtain ⟨k, -, h⟩ := withValue_next h
    cases h
    rw [ha]
    exact .fnRound n _ _ he ha (nextIndex?_some.1 hn)

theorem execFnFinish_effect (h : execFnFinish s = .next u) : Effect s .fnFinish u := by
  rcases unlessHalted_next h with ⟨he, rfl⟩ | ⟨he, h⟩
  · exact .same _ (.inr he)
  rcases failIf_next h with ⟨-, rfl⟩ | ⟨ha, h⟩
  · exact .fault _ _ he
  rcases failIf_next h with ⟨-, rfl⟩ | ⟨hn, h⟩
  · exact .fault _ _ he
  obtain ⟨l, -, h⟩ := withValue_next h
  obtain ⟨r, -, h⟩ := withValue_next h
  rw [complete_next h]
  exact .fnFinish _ he (by simpa using ha) (by simpa using hn)

theorem execLrRead_effect (h : execLrRead s = .next u) : Effect s .lrRead u := by
  rcases unlessHalted_next h with ⟨he, rfl⟩ | ⟨he, h⟩
  · exact .same _ (.inr he)
  split at h
  · cases h
    exact .fault _ _ he
  · obtain ⟨r, -, h⟩ := withValue_next h
    rw [complete_next h]
    exact .result _ _ rfl (.inr he)

theorem execEncBlock_effect (h : execEncBlock s = .next u) : Effect s .encBlock u := by
  rcases unlessHalted_next h with ⟨he, rfl⟩ | ⟨he, h⟩
  · exact .same _ (.inr he)
  rw [withDin_whole] at h
  rcases openBlock_next h with ⟨-, rfl⟩ | ⟨-, -, rfl⟩ | ⟨ha, hk, h⟩
  · exact .fault _ _ he
  · exact .fault _ _ he
  · obtain ⟨ks, -, h⟩ := withValue_next h
    rw [complete_next h]
    exact .block _ _ _ _ (.inl rfl) he ha hk

theorem execDecBlock_effect (h : execDecBlock s = .next u) : Effect s .decBlock u := by
  rcases unlessHalted_next h with ⟨he, rfl⟩ | ⟨he, h⟩
  · exact .same _ (.inr he)
  rw [withDin_whole] at h
  rcases openBlock_next h with ⟨-, rfl⟩ | ⟨-, -, rfl⟩ | ⟨ha, hk, h⟩
  · exact .fault _ _ he
  · exact .fault _ _ he
  · obtain ⟨ks, -, h⟩ := withValue_next h
    rw [complete_next h]
    exact .block _ _ _ _ (.inr rfl) he ha hk

/-- Whatever command runs, its next state is one of the effects. -/
theorem exec_effect (i : Instr) (h : exec i s = .next u) : Effect s i u := by
  cases i with
  | nop => cases h; exact .same _ (.inl rfl)
  | statusRead => rw [complete_next h]; exact .result _ _ rfl (.inl rfl)
  | permPc1 => exact .of_permCommand rfl h
  | permPc2 => exact .of_permCommand rfl h
  | permE => exact .of_permCommand rfl h
  | permP => exact .of_permCommand rfl h
  | permIp => exact .of_permCommand rfl h
  | permIip => exact .of_permCommand rfl h
  | sbox kk => exact .of_withDin rfl h
  | slayer => exact .of_withDin rfl h
  | ksLoad => exact execKsLoad_effect h
  | ksStep => exact execKsStep_effect h
  | ksGen => exact execKsGen_effect h
  | rkRead ii => exact execRkRead_effect h
  | cdRead => exact execCdRead_effect h
  | roundF => exact .of_withDin rfl h
  | fnStartEnc => exact execFnStartEnc_effect h
  | fnStartDec => exact execFnStartDec_effect h
  | fnRound => exact execFnRound_effect h
  | fnFinish => exact execFnFinish_effect h
  | encBlock => exact execEncBlock_effect h
  | decBlock => exact execDecBlock_effect h
  | lrRead => exact execLrRead_effect h

/-! ### Steps -/

/-- A running engine ignores nothing. -/
@[simp] theorem pending_running (h : s.status.err = false) : s.pending = s.inbox := by
  unfold State.pending
  cases hi : s.inbox with
  | nil => rfl
  | cons e rest => cases e <;> simp [List.dropWhile, State.ignores, State.stuckOn, h]

/-- An event the engine does not ignore is the next it takes. -/
theorem pending_of_taken {e : HostEvent} {rest : List HostEvent} (hi : s.inbox = e :: rest) (h : s.ignores e = false) :
    s.pending = e :: rest := by
  simp [State.pending, hi, h]

/-- The next event the engine takes is not one it ignores. -/
theorem not_ignores_of_pending {e : HostEvent} {rest : List HostEvent} (h : s.pending = e :: rest) :
    s.ignores e = false := by
  have := List.head?_dropWhile_not s.ignores s.inbox
  rw [show s.inbox.dropWhile s.ignores = e :: rest from h] at this
  simpa using this

theorem stuckOn_eq_true {w : CmdWord} :
    s.stuckOn w = true ↔ s.status.err = true ∧ w ≠ 0x0000 ∧ w ≠ 0x0100 := by
  simp [State.stuckOn]

/-- What a step can do: nothing, a reset, a command that decodes, or the fault of a word that does not. The words a halted
engine is stuck for are no steps. -/
theorem step_cases (h : step s = .next u) :
    (s.pending = [] ∧ u = s) ∨
    (∃ p rest, s.pending = .reset p :: rest ∧ u = (s.present (p.getD s.port) rest).resetRegisters) ∨
    (∃ t rest i, s.pending = .command t :: rest ∧ s.stuckOn t.cmd = false ∧ decode t.cmd = .ok i ∧
      exec i (s.present t rest) = .next u) ∨
    (∃ t rest e, s.pending = .command t :: rest ∧ decode t.cmd = .error e ∧ s.status.err = false ∧
      u = (s.present t rest).enterFault (decodeCause e)) := by
  unfold step stepEngine at h
  split at h
  · rename_i hi
    cases h
    exact .inl ⟨hi, rfl⟩
  · rename_i e rest hi
    cases e with
    | reset p =>
      cases h
      exact .inr (.inl ⟨p, rest, hi, rfl⟩)
    | command t =>
      have hs : s.stuckOn t.cmd = false := not_ignores_of_pending hi
      simp only [takeEvent, runCommand, State.present_port] at h
      split at h
      · rename_i i hd
        exact .inr (.inr (.inl ⟨t, rest, i, hi, hs, hd, h⟩))
      · rename_i e hd
        rcases unlessHalted_next h with ⟨he, -⟩ | ⟨he, h⟩
        · have hw : t.cmd = 0x0000 ∨ t.cmd = 0x0100 := by
            by_contra hw
            rw [not_or] at hw
            rw [stuckOn_eq_true.2 ⟨by simpa using he, hw⟩] at hs
            cases hs
          rcases hw with hw | hw <;> rw [hw] at hd <;> cases hd
        · cases h
          exact .inr (.inr (.inr ⟨t, rest, e, hi, hd, he, rfl⟩))

end Sys2Proof.Machine
end

