-- ==== Sys2Proof/Laws/PerInstr.lean ====
section
/-! SUPPORT. Statements made once per command: the encoding keeps to the layout of R71 and R72. -/

namespace Sys2Proof.Laws.WordLayout

/-- The word of a command has its operation code in `CMD[15:8]` and its argument in `CMD[7:0]`, with every reserved bit
of its format 0 (R71, R72). -/
def Statement (i : Instr) : Prop :=
  opcField (encode i) = opcodeOf i ∧ argField (encode i) = argOf i ∧ argField (encode i) &&& reservedArgBits i = 0#8

theorem nop : Statement .nop := by unfold Statement; decide
theorem statusRead : Statement .statusRead := by unfold Statement; decide
theorem permPc1 : Statement .permPc1 := by unfold Statement; decide
theorem permPc2 : Statement .permPc2 := by unfold Statement; decide
theorem permE : Statement .permE := by unfold Statement; decide
theorem permP : Statement .permP := by unfold Statement; decide
theorem permIp : Statement .permIp := by unfold Statement; decide
theorem permIip : Statement .permIip := by unfold Statement; decide
theorem sbox (kk : Fin 8) : Statement (.sbox kk) := by unfold Statement; revert kk; decide
theorem slayer : Statement .slayer := by unfold Statement; decide
theorem ksLoad : Statement .ksLoad := by unfold Statement; decide
theorem ksStep : Statement .ksStep := by unfold Statement; decide
theorem ksGen : Statement .ksGen := by unfold Statement; decide
theorem rkRead (ii : Fin 16) : Statement (.rkRead ii) := by unfold Statement; revert ii; decide
theorem cdRead : Statement .cdRead := by unfold Statement; decide
theorem roundF : Statement .roundF := by unfold Statement; decide
theorem fnStartEnc : Statement .fnStartEnc := by unfold Statement; decide
theorem fnStartDec : Statement .fnStartDec := by unfold Statement; decide
theorem fnRound : Statement .fnRound := by unfold Statement; decide
theorem fnFinish : Statement .fnFinish := by unfold Statement; decide
theorem encBlock : Statement .encBlock := by unfold Statement; decide
theorem decBlock : Statement .decBlock := by unfold Statement; decide
theorem lrRead : Statement .lrRead := by unfold Statement; decide

end Sys2Proof.Laws.WordLayout
end

