-- ==== Sys2Proof/Machine/Assembler.lean ====
section
/-! DEFINITION. The command assembly text of spec 30_encoding R85: a line to a transaction. It is a notation for what
the host presents, not part of the engine; the machine does not use it. -/

namespace Sys2Proof.Machine

/-- The mnemonic of a command (R79). -/
def mnemonicOf : Instr → String
  | .nop => "NOP"
  | .statusRead => "STATUS_READ"
  | .permPc1 => "PERM_PC1"
  | .permPc2 => "PERM_PC2"
  | .permE => "PERM_E"
  | .permP => "PERM_P"
  | .permIp => "PERM_IP"
  | .permIip => "PERM_IIP"
  | .sbox _ => "SBOX"
  | .slayer => "SLAYER"
  | .ksLoad => "KS_LOAD"
  | .ksStep => "KS_STEP"
  | .ksGen => "KS_GEN"
  | .rkRead _ => "RK_READ"
  | .cdRead => "CD_READ"
  | .roundF => "ROUND_F"
  | .fnStartEnc => "FN_START_ENC"
  | .fnStartDec => "FN_START_DEC"
  | .fnRound => "FN_ROUND"
  | .fnFinish => "FN_FINISH"
  | .encBlock => "ENC_BLOCK"
  | .decBlock => "DEC_BLOCK"
  | .lrRead => "LR_READ"

/-- The commands of format N, which take no `<arg>` (R72, R85). -/
def plainCommands : List Instr :=
  [.nop, .statusRead, .permPc1, .permPc2, .permE, .permP, .permIp, .permIip, .slayer, .ksLoad, .ksStep, .ksGen] ++
  [.cdRead, .roundF, .fnStartEnc, .fnStartDec, .fnRound, .fnFinish, .encBlock, .decBlock, .lrRead]

/-- A line's parts (R85): the values of the literals, if present. -/
structure AsmLine where
  mnemonic : List Char
  arg : Option Nat
  din : Option Nat
  kin : Option Nat
  deriving DecidableEq, Repr

/-- The command a line names: `<arg>` exactly with SBOX (1..8) and RK_READ (1..16); out of range is an error (R85). -/
def AsmLine.command? (a : AsmLine) : Option Instr :=
  match a.arg with
  | some k =>
    if a.mnemonic = "SBOX".toList then (boxSelector? k).map .sbox
    else if a.mnemonic = "RK_READ".toList then (rkIndex? k).map .rkRead
    else none
  | none => plainCommands.find? fun i => decide ((mnemonicOf i).toList = a.mnemonic)

/-- A literal on an `n`-bit port, right-aligned (R85); `omitted` where the line gives none. A literal with a bit above the
port is an error: the port cannot carry it. -/
def portValue? {n : Nat} (omitted : BitVec n) : Option Nat → Option (BitVec n)
  | none => some omitted
  | some v => if v < 2 ^ n then some (BitVec.ofNat n v) else none

/-- The transaction of a line. A port the line omits holds whatever the host has there (R85, R77): `omitted`. -/
def AsmLine.transaction? (omitted : Transaction) (a : AsmLine) : Option Transaction := do
  let i ← a.command?
  let din ← portValue? omitted.din a.din
  let kin ← portValue? omitted.kin a.kin
  some { cmd := encode i, din := din, kin := kin }

/-- The value of a digit character, hex digits in either case. -/
def digitValue? (c : Char) : Option Nat :=
  if '0' ≤ c ∧ c ≤ '9' then some (c.toNat - 48)
  else if 'a' ≤ c ∧ c ≤ 'f' then some (c.toNat - 87)
  else if 'A' ≤ c ∧ c ≤ 'F' then some (c.toNat - 55)
  else none

/-- Digits in a base, most significant first. -/
def digits? (base : Nat) : List Char → Nat → Option Nat
  | [], acc => some acc
  | c :: cs, acc =>
    match digitValue? c with
    | some v => if v < base then digits? base cs (acc * base + v) else none
    | none => none

/-- A literal: `0x` and hex digits, or `0b` and binary digits (R85). -/
def literal? : List Char → Option Nat
  | '0' :: 'x' :: c :: cs => digits? 16 (c :: cs) 0
  | '0' :: 'b' :: c :: cs => digits? 2 (c :: cs) 0
  | _ => none

/-- The words of a line: separated by spaces and commas, a comment from `;` on left out (R85). -/
def asmWords : List Char → List Char → List (List Char)
  | [], word => if word = [] then [] else [word.reverse]
  | c :: cs, word =>
    if c = ';' then (if word = [] then [] else [word.reverse])
    else if c = ' ' ∨ c = ',' then (if word = [] then asmWords cs [] else word.reverse :: asmWords cs [])
    else asmWords cs (c :: word)

/-- `kin=<literal>`, or nothing more. -/
def kinWord? : List (List Char) → Option (Option Nat)
  | [] => some none
  | ['k' :: 'i' :: 'n' :: '=' :: v] => (literal? v).map some
  | _ => none

/-- `[din=<literal>] [kin=<literal>]`. -/
def portWords? : List (List Char) → Option (Option Nat × Option Nat)
  | ('d' :: 'i' :: 'n' :: '=' :: v) :: rest =>
    match literal? v, kinWord? rest with
    | some d, some k => some (some d, k)
    | _, _ => none
  | rest => (kinWord? rest).map (none, ·)

/-- A line `<mnemonic> [<arg>] [, din=<literal>] [, kin=<literal>]` (R85). -/
def parseLine? (text : List Char) : Option AsmLine :=
  match asmWords text [] with
  | [] => none
  | m :: rest =>
    match rest with
    | a :: more =>
      match digits? 10 a 0 with
      | some k => (portWords? more).map fun p => { mnemonic := m, arg := some k, din := p.1, kin := p.2 }
      | none => (portWords? rest).map fun p => { mnemonic := m, arg := none, din := p.1, kin := p.2 }
    | [] => some { mnemonic := m, arg := none, din := none, kin := none }

/-- The transaction a line of text stands for (R85). -/
def assemble? (omitted : Transaction) (text : String) : Option Transaction :=
  (parseLine? text.toList).bind (·.transaction? omitted)

end Sys2Proof.Machine
end

