-- ==== Sys2Proof/Tests/Slice0.lean ====
section
/-! SUPPORT. Tests. Expected values come from the spec: words from the formats and rows of 30_encoding R72 and R79,
results from 95_test_vectors (cited by section), tables from the rules that print them. The last part gives, for each
statement with hypotheses, concrete states that meet them. -/

namespace Sys2Proof.Tests

open Sys2Proof Sys2Proof.Machine

set_option Elab.async false

/-! ### Well-formedness: an ill-formed instance for each check of R102 -/

theorem test_pc1_shape_refuses_short : { desTables with pc1 := desPc1.tail }.admitted = false := by decide +kernel
theorem test_pc1_shape_refuses_zero : { desTables with pc1 := desPc1.set 0 0 }.admitted = false := by decide +kernel
theorem test_pc1_shape_refuses_65 : { desTables with pc1 := desPc1.set 55 65 }.admitted = false := by decide +kernel
theorem test_pc2_shape_refuses_57 : { desTables with pc2 := desPc2.set 0 57 }.admitted = false := by decide +kernel
theorem test_p32_shape_refuses_repeat : { desTables with p32 := desP32.set 0 7 }.admitted = false := by decide +kernel
theorem test_ip_shape_refuses_repeat : { desTables with ip := desIp.set 0 50 }.admitted = false := by decide +kernel
theorem test_e_fixed : { desTables with e := expansionTable.set 0 31 }.admitted = false := by decide +kernel
theorem test_shifts_fixed : { desTables with shifts := shiftSchedule.set 0 2 }.admitted = false := by decide +kernel
theorem test_sbox_shape_refuses_16 :
    { desTables with sboxes := desTables.sboxes.set 7 (desS8.set 63 16) }.admitted = false := by decide +kernel
theorem test_sbox_shape_refuses_seven_boxes :
    { desTables with sboxes := desTables.sboxes.tail }.admitted = false := by decide +kernel

/-- R73, R74: box and index numbers are 1-based and bounded. -/
theorem test_selectors_refuse_out_of_range :
    boxSelector? 0 = none ∧ boxSelector? 9 = none ∧ boxSelector? 8 = some 7 ∧
    rkIndex? 0 = none ∧ rkIndex? 17 = none ∧ rkIndex? 16 = some 15 := by decide

/-! ### Tables -/

/-- R103: the formula `E[6(g-1)+j+1] = ((4(g-1)+j-1) mod 32) + 1`. -/
theorem test_e_is_the_formula :
    expansionTable = (List.range 48).map fun n => (4 * (n / 6) + n % 6 + 31) % 32 + 1 := by decide
/-- R109 prints the inverse of IP under `DES_STANDARD`. -/
theorem test_iip_is_the_printed_table : desTables.iip = desFinalPermutation := by decide +kernel
/-- R151, vectors of 95 section 2.3. -/
theorem test_rotl :
    rotl 0xF0CCAAF 1 = 0xE19955F ∧ rotl 0xF0CCAAF 2 = 0xC332ABF ∧ rotl 0x8000000 1 = 0x0000001 ∧
    rotl 0xC000000 2 = 0x0000003 := by decide

/-! ### Decoding: one word of each row of R79, bit by bit, `OPC` then `ARG` -/

theorem test_decode_control :
    decode 0b0000000000000000#16 = .ok .nop ∧ decode 0b0000000100000000#16 = .ok .statusRead := by decide
theorem test_decode_permutation :
    decode 0b0001000000000000#16 = .ok .permPc1 ∧ decode 0b0001000100000000#16 = .ok .permPc2 ∧
    decode 0b0001001000000000#16 = .ok .permE ∧ decode 0b0001001100000000#16 = .ok .permP ∧
    decode 0b0001010000000000#16 = .ok .permIp ∧ decode 0b0001010100000000#16 = .ok .permIip := by decide
theorem test_decode_sbox :
    decode 0b0010000000000000#16 = .ok (.sbox 0) ∧ decode 0b0010000000000111#16 = .ok (.sbox 7) ∧
    decode 0b0010000000000110#16 = .ok (.sbox 6) ∧ decode 0b0010000100000000#16 = .ok .slayer := by decide
theorem test_decode_key_schedule :
    decode 0b0011000000000000#16 = .ok .ksLoad ∧ decode 0b0011000100000000#16 = .ok .ksStep ∧
    decode 0b0011001000000000#16 = .ok .ksGen ∧ decode 0b0011001100000000#16 = .ok (.rkRead 0) ∧
    decode 0b0011001100001000#16 = .ok (.rkRead 8) ∧ decode 0b0011001100001111#16 = .ok (.rkRead 15) ∧
    decode 0b0011010000000000#16 = .ok .cdRead := by decide
theorem test_decode_round_function : decode 0b0100000000000000#16 = .ok .roundF := by decide
theorem test_decode_feistel :
    decode 0b0101000000000000#16 = .ok .fnStartEnc ∧ decode 0b0101000100000000#16 = .ok .fnStartDec ∧
    decode 0b0101001000000000#16 = .ok .fnRound ∧ decode 0b0101001100000000#16 = .ok .fnFinish ∧
    decode 0b0101010000000000#16 = .ok .encBlock ∧ decode 0b0101010100000000#16 = .ok .decBlock ∧
    decode 0b0101011000000000#16 = .ok .lrRead := by decide
/-- 95 sections 2.2, 2.3 and 2.6. -/
theorem test_decode_rejects :
    decode 0x0200 = .error .illegalOpcode ∧ decode 0x0001 = .error .reservedArg ∧
    decode 0x2008 = .error .reservedArg ∧ decode 0x3410 = .error .reservedArg ∧
    decode 0x3310 = .error .reservedArg ∧ decode 0x02FF = .error .illegalOpcode := by decide
theorem test_decode_table_word :
    decodeTableWord 16 0x3305 = some (.rkRead 5) ∧ decodeTableWord 16 0x2008 = none ∧
    decodeTableWord 32 0x10000 = none := by decide

/-! ### Assembly text (R85) -/

theorem test_assemble_sbox : assemble? ⟨0, 1, 2⟩ "SBOX 1, din=0b011011" = some ⟨0x2000, 27, 2⟩ := by decide +kernel
theorem test_assemble_round_f :
    assemble? ⟨0, 1, 2⟩ "ROUND_F din=0xF0AAF0AA, kin=0x1B02EFFC7072 ; F" =
      some ⟨0x4000, 0xF0AAF0AA, 0x1B02EFFC7072⟩ := by decide +kernel
theorem test_assemble_rejects :
    assemble? ⟨0, 1, 2⟩ "SBOX 9" = none ∧ assemble? ⟨0, 1, 2⟩ "RK_READ 0" = none ∧ assemble? ⟨0, 1, 2⟩ "SBOX" = none ∧
    assemble? ⟨0, 1, 2⟩ "NOP 1" = none := by decide +kernel

/-! ### Small states -/

/-- A reset engine with operands on the ports. -/
def ports (din : Block) (kin : RoundKey := 0) : State := { State.reset with port := { cmd := 0, din := din, kin := kin } }
/-- C and D loaded, `n` steps taken, the keys of the steps taken all 0: the schedule of key 0 under `DES_STANDARD`
(95 section 2.3, degenerate keys). -/
def stepped (n : Fin 17) (din : Block := 0) : State :=
  { ports din with
    c := some 0, d := some 0, rk := sixteen fun i => if i.val < n.val then some 0 else none,
    status := { Status.zero with ksLoaded := true, ksCnt := n } }
/-- All 16 round keys made. -/
def keyed (din : Block := 0) : State := stepped 16 din
/-- A block in flight after `n` rounds. -/
def inFlight (dir : Dir) (n : Fin 17) (l : HalfBlock := 0) (r : HalfBlock := 0) : State :=
  { keyed with
    l := some l, r := some r,
    status := { Status.zero with ksLoaded := true, ksCnt := 16, blkActive := true, blkDir := dir, blkCnt := n } }
/-- A halted engine (cause ILLEGAL_OPCODE). -/
def halted : State := State.reset.faulted .illegalOpcode
/-- The state with `w` as the host's next transaction. -/
def posed (s : State) (w : CmdWord) : State := { s with inbox := [issue w 0 0] }

/-- What a command leaves in DOUT. -/
def doutOf : Result → Option Block
  | .next s => s.dout
  | _ => none
/-- The cause a command leaves recorded. -/
def causeOf : Result → Option Cause
  | .next s => s.status.cause
  | _ => none
/-- Whether a command answers the state `u`. -/
def answers (r : Result) (u : State) : Bool :=
  match r with
  | .next s => decide (s = u)
  | _ => false

/-- Whether the answer is a next state. -/
def isNext : Result → Bool
  | .next _ => true
  | _ => false
/-- The next state of an answer that has one. -/
def after : Result → State
  | .next s => s
  | _ => State.reset
theorem eq_next_after {r : Result} (h : isNext r = true) : r = .next (after r) := by
  cases r <;> first | rfl | cases h

/-! ### One command at a time -/

theorem test_status_read_keyed : doutOf (exec .statusRead (keyed)) = some 0x420 := by decide +kernel
/-- 95 section 2.5: a decrypt in flight at `BLK_CNT = 5`. -/
theorem test_status_read_in_flight : doutOf (exec .statusRead (inFlight .decrypt 5)) = some 0xBC20 := by decide +kernel
/-- 95 section 2.6: after KS_OVERRUN. -/
theorem test_status_read_halted :
    doutOf (exec .statusRead (keyed.faulted .ksOverrun)) = some 0x42B := by decide +kernel
theorem test_nop_halted : answers (exec .nop halted) halted = true := by decide +kernel

theorem test_perm_pc1 : doutOf (exec .permPc1 (ports 0x133457799BBCDFF1)) = some 0xF0CCAAF556678F := by decide +kernel
theorem test_perm_pc1_first : doutOf (exec .permPc1 (ports 0x8000000000000000)) = some 0x01000000000000 := by
  decide +kernel
theorem test_perm_pc2 : doutOf (exec .permPc2 (ports 0x00000001000000)) = some 0x000000000001 := by decide +kernel
theorem test_perm_pc2_long : causeOf (exec .permPc2 (ports 0x0100000000000000)) = some .invalidLength := by
  decide +kernel
theorem test_perm_e : doutOf (exec .permE (ports 0xF0AAF0AA)) = some 0x7A15557A1555 := by decide +kernel
theorem test_perm_e_wraps : doutOf (exec .permE (ports 0x80000000)) = some 0x400000000001 := by decide +kernel
theorem test_perm_p : doutOf (exec .permP (ports 0x5C82B597)) = some 0x234AA9BB := by decide +kernel
theorem test_perm_p_last : doutOf (exec .permP (ports 0x00000001)) = some 0x00000800 := by decide +kernel
theorem test_perm_ip : doutOf (exec .permIp (ports 0x0123456789ABCDEF)) = some 0xCC00CCFFF0AAF0AA := by decide +kernel
theorem test_perm_ip_last : doutOf (exec .permIp (ports 0x0000000000000001)) = some 0x0000008000000000 := by
  decide +kernel
theorem test_perm_iip : doutOf (exec .permIip (ports 0x0123456789ABCDEF)) = some 0xFF330FAA00330FAA := by
  decide +kernel
theorem test_perm_iip_first : doutOf (exec .permIip (ports 0x8000000000000000)) = some 0x0000000000000040 := by
  decide +kernel

theorem test_sbox_source_example : doutOf (exec (.sbox 0) (ports 0b011011)) = some 5 := by decide +kernel
/-- Row 3, column 0 of every box (95 section 2.2). -/
theorem test_sbox_row3 :
    (List.finRange 8).map (fun kk => doutOf (exec (.sbox kk) (ports 0b100001))) =
      [some 15, some 13, some 1, some 3, some 11, some 4, some 6, some 2] := by decide +kernel
theorem test_slayer : doutOf (exec .slayer (ports 0x6117BA866527)) = some 0x5C82B597 := by decide +kernel
theorem test_slayer_zero : doutOf (exec .slayer (ports 0)) = some 0xEFA72C4D := by decide +kernel

theorem test_ks_load :
    answers (exec .ksLoad (ports 0x133457799BBCDFF1))
      { ports 0x133457799BBCDFF1 with
        c := some 0xF0CCAAF, d := some 0x556678F, status := { Status.zero with ksLoaded := true } } = true := by
  decide +kernel
/-- Step 3 of the table in 95 section 2.3. -/
theorem test_ks_step :
    answers (exec .ksStep { stepped 2 with c := some 0xC332ABF, d := some 0x5599E3D })
      { stepped 3 with c := some 0x0CCAAFF, d := some 0x56678F5, rk := (stepped 2).rk.set 2 (some 0x55FC8A42CF99) } =
      true := by decide +kernel
theorem test_ks_step_unloaded : causeOf (exec .ksStep (ports 0)) = some .ksNotLoaded := by decide +kernel
/-- The table of 95 section 2.3. -/
theorem test_key_schedule :
    (keySchedule desStandard 0x133457799BBCDFF1).toList =
      [0x1B02EFFC7072, 0x79AED9DBC9E5, 0x55FC8A42CF99, 0x72ADD6DB351D] ++
      [0x7CEC07EB53A8, 0x63A53E507B2F, 0xEC84B7F618BC, 0xF78A3AC13BFB] ++
      [0xE0DBEBEDE781, 0xB1F347BA464F, 0x215FD3DED386, 0x7571F59467E9] ++
      [0x97C5D1FABA41, 0x5F43B7F2E73A, 0xBF918D3D3F0A, 0xCB3D8B0E17F5] := by decide +kernel
theorem test_ks_gen :
    answers (exec .ksGen (ports 0x0101010101010101)) (keyed 0x0101010101010101) = true := by decide +kernel
theorem test_rk_read : doutOf (exec (.rkRead 15) { keyed with rk := keyed.rk.set 15 (some 0xCB3D8B0E17F5) }) =
    some 0x0000CB3D8B0E17F5 := by decide +kernel
theorem test_rk_read_unwritten : causeOf (exec (.rkRead 0) (stepped 0)) = some .rkUnwritten := by decide +kernel
theorem test_cd_read : doutOf (exec .cdRead { keyed with c := some 0xF0CCAAF, d := some 0x556678F }) =
    some 0x00F0CCAAF556678F := by decide +kernel

theorem test_round_f : doutOf (exec .roundF (ports 0xF0AAF0AA 0x1B02EFFC7072)) = some 0x234AA9BB := by decide +kernel
theorem test_round_f_decrypt : doutOf (exec .roundF (ports 0x43423234 0xCB3D8B0E17F5)) = some 0xC8C04F98 := by
  decide +kernel

theorem test_fn_start_enc :
    answers (exec .fnStartEnc (keyed 0x0123456789ABCDEF))
      { inFlight .encrypt 0 0xCC00CCFF 0xF0AAF0AA with port := (keyed 0x0123456789ABCDEF).port } = true := by
  decide +kernel
theorem test_fn_start_dec :
    answers (exec .fnStartDec (keyed 0x0A4CD99543423234))
      { inFlight .decrypt 0 0x0A4CD995 0x43423234 with port := (keyed 0x0A4CD99543423234).port } = true := by
  decide +kernel
/-- The first encrypt round of 95 section 2.5. -/
theorem test_fn_round_enc :
    let rk := keyed.rk.set 0 (some 0x1B02EFFC7072)
    answers (exec .fnRound { inFlight .encrypt 0 0xCC00CCFF 0xF0AAF0AA with rk := rk })
      { inFlight .encrypt 1 0xF0AAF0AA 0xEF4A6544 with rk := rk } = true := by decide +kernel
/-- The first decrypt round of 95 section 2.5: it uses RK[16]. -/
theorem test_fn_round_dec :
    let rk := keyed.rk.set 15 (some 0xCB3D8B0E17F5)
    answers (exec .fnRound { inFlight .decrypt 0 0x0A4CD995 0x43423234 with rk := rk })
      { inFlight .decrypt 1 0x43423234 0xC28C960D with rk := rk } = true := by decide +kernel
theorem test_fn_finish_enc : doutOf (exec .fnFinish (inFlight .encrypt 16 0x43423234 0x0A4CD995)) =
    some 0x0A4CD99543423234 := by decide +kernel
theorem test_fn_finish_dec : doutOf (exec .fnFinish (inFlight .decrypt 16 0xF0AAF0AA 0xCC00CCFF)) =
    some 0x0123456789ABCDEF := by decide +kernel
theorem test_lr_read : doutOf (exec .lrRead (inFlight .encrypt 16 0x43423234 0x0A4CD995)) =
    some 0x434232340A4CD995 := by decide +kernel
theorem test_lr_read_before_any_block : causeOf (exec .lrRead (ports 0)) = some .blkSequence := by decide +kernel
/-- 95 section 1.4: the engine's output for the first DES vector. -/
theorem test_enc_block :
    doutOf (exec .encBlock
      { keyed 0x0123456789ABCDEF with rk := (keySchedule desStandard 0x133457799BBCDFF1).map some }) =
      some 0x0A4CD99543423234 := by decide +kernel
theorem test_enc_block_after_reset : causeOf (exec .encBlock (ports 0)) = some .ksIncomplete := by decide +kernel
/-- 95 section 1.3, block 1, back. -/
theorem test_dec_block :
    doutOf (exec .decBlock
      { keyed 0xDFA96CF60F2FCABB with rk := (keySchedule desStandard 0x6162636465666768).map some }) =
      some 0x7468697320617373 := by decide +kernel
theorem test_dec_block_in_flight : causeOf (exec .decBlock (inFlight .encrypt 0)) = some .blkSequence := by
  decide +kernel

/-! ### One step from the host's side (95 sections 2.6 and 3.4) -/

theorem test_step_rejects_before_the_sequence_check :
    causeOf (step (posed State.reset 0x3101)) = some .reservedArg := by decide +kernel
/-- 93 U8: with nothing else to come, nothing moves. -/
theorem test_step_halted_is_stuck :
    answers (step (posed halted 0x0101)) (posed halted 0x0101) = true := by decide +kernel
theorem test_step_reset_ends_the_halt :
    answers (step { halted with inbox := [.reset none] }) State.reset = true := by decide +kernel
/-- 95 section 3.4, the end: KS_GEN is ignored and is no step, and STATUS_READ after it still executes. -/
theorem test_step_passes_over_ignored_word :
    doutOf (step { State.reset.faulted .ksIncomplete with
      inbox := [issue 0x3200 0x133457799BBCDFF1 0, issue 0x0100 0 0] }) = some 0xD := by decide +kernel
theorem test_with_fetch_word_runs_next :
    answers (step (State.reset.withFetchWord 16 0x5400))
      { State.reset.faulted .ksIncomplete with port := ⟨0x5400, 0, 0⟩ } = true := by decide +kernel

/-! ### Witnesses: the hypotheses of each statement are met, each clause at the ends of its range -/

theorem witness_selectors :
    decode 0x2000 = .ok (.sbox 0) ∧ decode (0x2000 + BitVec.ofNat 16 7) = .ok (.sbox 7) ∧
    decode 0x3300 = .ok (.rkRead 0) ∧ decode (0x3300 + BitVec.ofNat 16 15) = .ok (.rkRead 15) := by decide

/-- UnassignedOpcodeRaisesIllegalOpcode: the ends of each range of R80, and their neighbours outside it. -/
theorem witness_unassigned_opcode :
    (posed State.reset 0x0200).status.err = false ∧ (posed State.reset 0x0200).inbox = issue 0x0200 0 0 :: [] ∧
    (∀ o ∈ [0x02, 0x0F, 0x16, 0x1F, 0x22, 0x2F, 0x35, 0x3F, 0x41, 0x4F, 0x57, 0xFF],
      causeOf (step (posed State.reset (BitVec.ofNat 16 (o * 256)))) = some .illegalOpcode) ∧
    (∀ o ∈ [0x00, 0x01, 0x10, 0x15, 0x20, 0x21, 0x30, 0x34, 0x40, 0x50, 0x56],
      decode (BitVec.ofNat 16 (o * 256)) ≠ .error .illegalOpcode) := by decide +kernel

/-- ReservedArgBitRaisesReservedArg: the lowest and highest reserved bit of each format. -/
theorem witness_reserved_arg :
    (posed State.reset 0x0001).status.err = false ∧ (posed State.reset 0x0001).inbox = issue 0x0001 0 0 :: [] ∧
    ([0x0001#16, 0x0080#16, 0x3401#16, 0x5080#16, 0x5601#16, 0x2008#16, 0x2080#16, 0x3310#16, 0x3380#16].map
      fun w => causeOf (step (posed State.reset w))) = List.replicate 9 (some .reservedArg) := by decide +kernel

/-- StepRunsTheDecodedCommand. -/
theorem witness_step_runs :
    (posed keyed 0x5400).inbox = .command { cmd := 0x5400, din := 0, kin := 0 } :: [] ∧
    decode 0x5400 = .ok .encBlock ∧ (posed keyed 0x5400).status.err = false ∧
    (posed halted 0x0100).inbox = .command { cmd := 0x0100, din := 0, kin := 0 } :: [] ∧
    decode 0x0100 = .ok .statusRead := by decide

/-- IdleStepHoldsTheState. -/
theorem witness_idle : State.reset.inbox = [] := rfl

/-- ResetEmptiesEveryRegisterAndAloneEndsTheHalt: reset between and inside transactions, and a halt that ends. -/
theorem witness_reset :
    { keyed with inbox := [.reset none] }.inbox = .reset none :: [] ∧
    { keyed with inbox := [.reset (some ⟨0x5400, 0, 0⟩)] }.inbox = .reset (some ⟨0x5400, 0, 0⟩) :: [] ∧
    ∃ u, { halted with inbox := [.reset none] }.status.err = true ∧
      step { halted with inbox := [.reset none] } = .next u ∧ u.status.err = false :=
  ⟨by decide, by decide, _, by decide, eq_next_after (by decide +kernel), by decide +kernel⟩

/-- EveryFaultIsPrecise: a rejected word of each kind, and KS_STEP with nothing loaded. -/
theorem witness_precise_fault :
    (∃ u, (posed State.reset 0x0200).status.err = false ∧ decode 0x0200 = .error .illegalOpcode ∧
      step (posed State.reset 0x0200) = .next u ∧ u.status.err = true) ∧
    (∃ u, (posed State.reset 0x3101).status.err = false ∧ decode 0x3101 = .error .reservedArg ∧
      step (posed State.reset 0x3101) = .next u ∧ u.status.err = true) ∧
    ∃ u, (posed State.reset 0x3100).status.err = false ∧ decode 0x3100 = .ok .ksStep ∧
      step (posed State.reset 0x3100) = .next u ∧ u.status.err = true :=
  ⟨⟨_, by decide, by decide, eq_next_after (by decide +kernel), by decide +kernel⟩,
    ⟨_, by decide, by decide, eq_next_after (by decide +kernel), by decide +kernel⟩,
    _, by decide, by decide, eq_next_after (by decide +kernel), by decide +kernel⟩

/-- HaltedEngineAnswersOnlyNopAndStatusRead: NOP, STATUS_READ; an assigned, a rejected and a STATUS_READ word with a set
ARG bit, with a reset after them and with nothing. -/
theorem witness_halted :
    (posed halted 0x0000).status.err = true ∧ (posed halted 0x0000).inbox = issue 0x0000 0 0 :: [] ∧
    (posed halted 0x0100).inbox = issue 0x0100 0 0 :: [] ∧
    (∀ w ∈ [0x3200, 0x0200, 0x0101], BitVec.ofNat 16 w ≠ 0x0000 ∧ BitVec.ofNat 16 w ≠ 0x0100 ∧
      (posed halted (BitVec.ofNat 16 w)).inbox = issue (BitVec.ofNat 16 w) 0 0 :: []) ∧
    (∃ e ∈ [issue 0x5200 0 0, .reset none], halted.ignores e = false) ∧
    (∀ e ∈ ([] : List HostEvent), halted.ignores e = true) ∧
    (∀ e ∈ [issue 0x5200 0 0], halted.ignores e = true) := by decide

/-- StuckEngineMakesNoStepUntilReset: two words the engine is stuck for. -/
theorem witness_stuck :
    halted.status.err = true ∧
    ∀ t ∈ [(⟨0x3200, 1, 0⟩ : Transaction), ⟨0x0101, 0, 0⟩], t.cmd ≠ 0x0000 ∧ t.cmd ≠ 0x0100 := by decide

/-- FirstFaultStaysRecordedUntilReset: a rejected word, and a reset. -/
theorem witness_sticky :
    (∃ u, (posed halted 0x0200).status.err = true ∧ step (posed halted 0x0200) = .next u ∧
      ¬ (posed halted 0x0200).resetNext) ∧
    ∃ u, { halted with inbox := [.reset none] }.status.err = true ∧
      step { halted with inbox := [.reset none] } = .next u ∧ { halted with inbox := [.reset none] }.resetNext :=
  ⟨⟨_, by decide, eq_next_after (by decide +kernel), by rintro ⟨p, rest, h⟩; cases h⟩,
    _, by decide, eq_next_after (by decide +kernel), none, [], rfl⟩

/-- FirstFailingCheckIsTheFaultTaken: each cause a command can raise, and the order where two checks fail. -/
theorem witness_first_failing :
    (ports 0x40).status.err = false ∧ firstFailing (checksOf (.sbox 0) (ports 0x40)) = some .invalidLength ∧
    firstFailing (checksOf .ksStep State.reset) = some .ksNotLoaded ∧
    firstFailing (checksOf .ksStep keyed) = some .ksOverrun ∧
    firstFailing (checksOf .ksStep (inFlight .encrypt 0)) = some .blkSequence ∧
    firstFailing (checksOf .encBlock (stepped 15)) = some .ksIncomplete ∧
    firstFailing (checksOf (.rkRead 15) (stepped 15)) = some .rkUnwritten ∧
    firstFailing (checksOf .fnRound (inFlight .encrypt 16)) = some .blkSequence ∧
    firstFailing (checksOf .fnFinish (inFlight .encrypt 15)) = some .blkSequence ∧
    firstFailing (checksOf .lrRead keyed) = some .blkSequence := by decide +kernel

/-- CommandCompletesWhenNoCheckFails: a state for every command. -/
theorem witness_completes :
    (State.reset.Inv ∧ State.reset.status.err = false ∧
      ∀ i ∈ [.nop, .statusRead, .permPc1, .permPc2, .permE, .permP, .permIp, .permIip, .sbox 7, .slayer] ++
        [.ksLoad, .ksGen, .roundF], firstFailing (checksOf i State.reset) = none) ∧
    ((stepped 15).Inv ∧ (stepped 15).status.err = false ∧
      ∀ i ∈ [Instr.ksStep, .cdRead, .rkRead 14], firstFailing (checksOf i (stepped 15)) = none) ∧
    (keyed.Inv ∧ keyed.status.err = false ∧
      ∀ i ∈ [Instr.fnStartEnc, .fnStartDec, .encBlock, .decBlock], firstFailing (checksOf i keyed) = none) ∧
    ((inFlight .decrypt 15).Inv ∧ (inFlight .decrypt 15).status.err = false ∧
      ∀ i ∈ [Instr.fnRound, .lrRead], firstFailing (checksOf i (inFlight .decrypt 15)) = none) ∧
    (inFlight .decrypt 16).Inv ∧ (inFlight .decrypt 16).status.err = false ∧
      firstFailing (checksOf .fnFinish (inFlight .decrypt 16)) = none :=
  ⟨⟨by decide +kernel, by decide, by decide +kernel⟩, ⟨by decide +kernel, by decide, by decide +kernel⟩,
    ⟨by decide +kernel, by decide, by decide +kernel⟩, ⟨by decide +kernel, by decide, by decide +kernel⟩,
    by decide +kernel, by decide, by decide +kernel⟩

/-- The statements on one operand field: the widest value that fits and the narrowest that does not. -/
theorem witness_din_bounds :
    (ports 0).status.err = false ∧
    (ports 0xFFFFFFFFFFFFFF).port.din.toNat < 2 ^ 56 ∧ 2 ^ 56 ≤ (ports 0x100000000000000).port.din.toNat ∧
    (ports 0xFFFFFFFFFFFF).port.din.toNat < 2 ^ 48 ∧ 2 ^ 48 ≤ (ports 0x1000000000000).port.din.toNat ∧
    (ports 0xFFFFFFFF).port.din.toNat < 2 ^ 32 ∧ 2 ^ 32 ≤ (ports 0x100000000).port.din.toNat ∧
    (ports 0x3F).port.din.toNat < 2 ^ 6 ∧ 2 ^ 6 ≤ (ports 0x40).port.din.toNat := by decide +kernel

/-- IipIsTheInverseOfIp, last clause: a table of 64 positions that undoes IP, under `DES_STANDARD`. -/
theorem witness_iip :
    desStandard.iip.length = 64 ∧ (∀ p ∈ desStandard.iip, 1 ≤ p ∧ p ≤ 64) ∧
    ∀ x : Block, permute 64 desStandard.iip (permute 64 desStandard.ip x : Block) = x := by
  have hr : ∀ j, j < 64 → 1 ≤ desStandard.iip.getD j 0 ∧ desStandard.iip.getD j 0 ≤ 64 ∧
      desStandard.ip.getD (desStandard.iip.getD j 0 - 1) 0 = j + 1 := by decide +kernel
  refine ⟨by decide +kernel, by decide +kernel, fun x => ?_⟩
  apply BitVec.eq_of_getLsbD_eq
  intro b hb
  obtain ⟨h1, h2, h3⟩ := hr (63 - b) (by omega)
  have h := pos_permute (len := 64) (table := desStandard.iip) (permute 64 desStandard.ip x : Block) (by decide +kernel)
    (p := 64 - b) (by omega) (by omega)
  rw [show 64 - b - 1 = 63 - b by omega, pos_permute x (by decide +kernel) h1 h2, h3] at h
  rwa [pos_eq_getLsbD _ (by omega) (by omega), pos_eq_getLsbD _ (by omega) (by omega),
    show 64 - (64 - b) = b by omega, show 64 - (63 - b + 1) = b by omega] at h

/-- WorkedDecodeReadsIndex29. -/
theorem witness_index_29 : (ports 0b011011).status.err = false ∧ (ports 0b011011).port.din = 0b011011 := by decide

/-- The key-schedule statements: step 1 and step 16, each fault, both sides of `BLK_ACTIVE`. -/
theorem witness_key_schedule :
    (stepped 0).status.err = false ∧ (stepped 0).status.blkActive = false ∧ (stepped 0).status.ksLoaded = true ∧
    (stepped 0).status.ksCnt.val = (0 : Fin 16).val ∧ (stepped 0).c = some 0 ∧ (stepped 0).d = some 0 ∧
    (stepped 15).status.err = false ∧ (stepped 15).status.blkActive = false ∧ (stepped 15).status.ksLoaded = true ∧
    (stepped 15).status.ksCnt.val = (15 : Fin 16).val ∧ (stepped 15).c = some 0 ∧ (stepped 15).d = some 0 ∧
    (stepped 16).status.err = false ∧ (stepped 16).status.blkActive = false ∧ (stepped 16).status.ksLoaded = true ∧
    (stepped 16).status.ksCnt = 16 ∧
    State.reset.status.err = false ∧ State.reset.status.blkActive = false ∧ State.reset.status.ksLoaded = false ∧
    (inFlight .encrypt 0).status.err = false ∧ (inFlight .encrypt 0).status.blkActive = true := by decide +kernel

/-- RkReadReturnsTheIndexedKey: the first and the last entry, written and unwritten. -/
theorem witness_rk_read :
    keyed.status.err = false ∧ keyed.rk[(0 : Fin 16).val] = some 0 ∧ keyed.rk[(15 : Fin 16).val] = some 0 ∧
    State.reset.status.err = false ∧ State.reset.rk[(0 : Fin 16).val] = none ∧ (stepped 15).status.err = false ∧
    (stepped 15).rk[(15 : Fin 16).val] = none ∧ (stepped 15).Inv := by decide +kernel

/-- The start and whole-block statements: ready, in flight, and one round key short. -/
theorem witness_open_block :
    keyed.status.err = false ∧ keyed.status.blkActive = false ∧ keyed.status.ksCnt = 16 ∧
    (∀ i : Fin 16, keyed.rk[i.val] = some (Vector.replicate 16 (0 : RoundKey))[i.val]) ∧
    (inFlight .decrypt 3).status.err = false ∧ (inFlight .decrypt 3).status.blkActive = true ∧
    (stepped 15).status.err = false ∧ (stepped 15).status.blkActive = false ∧ (stepped 15).status.ksCnt ≠ 16 := by
  decide +kernel

/-- FnRoundDoesOneRound and FnFinishSwapsAndClosesTheBlock: first and last round of each direction, a finished block,
an unfinished one, none. -/
theorem witness_rounds :
    (∀ dir ∈ [Dir.encrypt, Dir.decrypt], ∀ n ∈ [(0 : Fin 16), 15],
      (inFlight dir n.castSucc).status.err = false ∧ (inFlight dir n.castSucc).status.blkActive = true ∧
      (inFlight dir n.castSucc).status.blkCnt.val = n.val ∧ (inFlight dir n.castSucc).l = some 0 ∧
      (inFlight dir n.castSucc).r = some 0 ∧ (inFlight dir n.castSucc).status.blkDir = dir ∧
      (inFlight dir n.castSucc).rk[n.val] = some 0 ∧ (inFlight dir n.castSucc).rk[15 - n.val] = some 0) ∧
    (∀ dir ∈ [Dir.encrypt, Dir.decrypt],
      (inFlight dir 16).status.err = false ∧ (inFlight dir 16).status.blkActive = true ∧
      (inFlight dir 16).status.blkCnt = 16 ∧ (inFlight dir 16).status.blkDir = dir ∧ (inFlight dir 16).l = some 0 ∧
      (inFlight dir 16).r = some 0) ∧
    (inFlight .encrypt 15).status.blkCnt ≠ 16 ∧ keyed.status.err = false ∧ keyed.status.blkActive = false := by
  decide +kernel

/-- LrReadReturnsLAndR. -/
theorem witness_lr_read :
    (inFlight .encrypt 0 1 2).status.err = false ∧ (inFlight .encrypt 0 1 2).l = some 1 ∧
    (inFlight .encrypt 0 1 2).r = some 2 ∧ State.reset.status.err = false ∧ State.reset.l = none := by decide

/-- The statements whose hypothesis is `State.Inv`: reset, a key half made, a block in flight, a halted engine. -/
theorem witness_inv :
    State.reset.Inv ∧ (stepped 0).Inv ∧ (stepped 7).Inv ∧ keyed.Inv ∧ (inFlight .encrypt 0).Inv ∧
    (inFlight .decrypt 16).Inv ∧ (keyed.faulted .ksOverrun).Inv :=
  ⟨by decide +kernel, by decide +kernel, by decide +kernel, by decide +kernel, by decide +kernel, by decide +kernel,
    by decide +kernel⟩

/-- BlockResultDependsOnlyOnKeysAndDin: two states that differ in L, R, C, D, DOUT and KIN. -/
theorem witness_same_keys : ∃ s s' : State,
    s.Inv ∧ s'.Inv ∧ s.status.err = false ∧ s'.status.err = false ∧ s.status.blkActive = false ∧
    s'.status.blkActive = false ∧ s.status.ksCnt = 16 ∧ s'.status.ksCnt = 16 ∧ s.tables = s'.tables ∧ s.rk = s'.rk ∧
    s.port.din = s'.port.din :=
  ⟨keyed, { keyed with c := some 1, d := some 2, l := some 3, r := some 4, dout := some 5, port := ⟨0, 0, 6⟩ },
    by decide +kernel, by decide +kernel, by decide, by decide, by decide, by decide, by decide, by decide, rfl, rfl,
    by decide⟩

/-- EveryStepKeepsTheInvariants, NoStepChangesTheTables: a step from a state with work in flight. -/
theorem witness_step_next : ∃ u, (posed (inFlight .encrypt 0) 0x5200).Inv ∧
    step (posed (inFlight .encrypt 0) 0x5200) = .next u :=
  ⟨_, by decide +kernel, eq_next_after (by decide +kernel)⟩

/-- EveryStepKeepsOneSchedule: a schedule of key 0 half made, and a step of it. -/
theorem witness_one_schedule : ∃ u, (posed (stepped 7) 0x3100).OneSchedule ∧
    step (posed (stepped 7) 0x3100) = .next u :=
  ⟨_, fun _ => ⟨0, by decide +kernel, by decide +kernel, by decide +kernel⟩, eq_next_after (by decide +kernel)⟩

/-- NoKeyChangeInTheMiddleOfABlock. -/
theorem witness_mid_block : ∃ u, (posed (inFlight .encrypt 3) 0x3000).status.blkActive = true ∧
    (posed (inFlight .encrypt 3) 0x3000).status.err = false ∧ step (posed (inFlight .encrypt 3) 0x3000) = .next u ∧
    ¬ (posed (inFlight .encrypt 3) 0x3000).resetNext :=
  ⟨_, by decide, by decide, eq_next_after (by decide +kernel), by rintro ⟨p, rest, h⟩; cases h⟩

/-- OnlyTheNamedCommandsWriteEachRegister, CountersMoveOneStepAtATime, RoundKeysStayUntilANewSchedule: a command that
moves a counter and writes registers, with a round key that stands. -/
theorem witness_command_next : ∃ u, (stepped 7).Inv ∧ exec .ksStep (stepped 7) = .next u ∧
    u.status.ksCnt ≠ (stepped 7).status.ksCnt ∧ (stepped 7).rk[(0 : Fin 16).val] = some 0 ∧ Instr.ksStep ≠ .ksLoad ∧
    Instr.ksStep ≠ .ksGen :=
  ⟨_, by decide +kernel, eq_next_after (by decide +kernel), by decide +kernel, by decide +kernel, by decide, by decide⟩

/-- UnusedPortsHaveNoEffect. -/
theorem witness_unused_ports :
    Instr.encBlock ≠ .roundF ∧ leavesDinUnused .ksStep = true ∧ leavesDinUnused (.rkRead 15) = true := by decide

/-- KeyEncryptDecryptReturnsTheBlock. -/
theorem witness_session : State.reset.status.err = false ∧ State.reset.status.blkActive = false := by decide

end Sys2Proof.Tests
end

section
/-! The state after reset (spec 10_state R31). -/

namespace Sys2Proof.Machine

/-- Every STATUS field 0 is the STATUS word 0 (R25, R31). -/
@[simp] theorem Status.word_zero : Status.zero.word = 0 := by decide

@[simp] theorem State.reset_rk_getElem (i : Fin 16) : State.reset.rk[i.val] = none :=
  Vector.getElem_replicate i.isLt

/-- Settles O11: the round-key store and the STATUS word by their lemmas, every other register by its value in
`State.reset`. -/
theorem resetStateHoldsNothing : Obligations.ResetStateHoldsNothing :=
  ⟨rfl, rfl, State.reset_rk_getElem, rfl, rfl, rfl, Status.word_zero, rfl⟩

end Sys2Proof.Machine
end

section
/-! What a step can change: the frame of each effect (spec 10_state R20, R22, R24, R25), of a step, and of a step of a
halted engine (R26, 60 R243). -/

namespace Sys2Proof.Machine

variable {s u : State} {i : Instr}

/-! ### The frame of an effect -/

/-- R20, and log 2: no command writes the tables, the ports or the host's list. -/
theorem Effect.outside_eq (h : Effect s i u) : u.tables = s.tables ∧ u.port = s.port ∧ u.inbox = s.inbox := by
  cases h <;> exact ⟨rfl, rfl, rfl⟩

theorem Effect.writes_schedule (h : Effect s i u)
    (hc : u.c ≠ s.c ∨ u.d ≠ s.d ∨ u.rk ≠ s.rk ∨ u.status.ksCnt ≠ s.status.ksCnt) :
    i = .ksLoad ∨ i = .ksStep ∨ i = .ksGen := by
  cases h with
  | ksLoad | ksStep | ksGen => simp
  | _ => simp at hc

/-- R155: KS_STEP leaves KS_LOADED, which it has checked to be 1. -/
theorem Effect.writes_ksLoaded (h : Effect s i u) (hc : u.status.ksLoaded ≠ s.status.ksLoaded) :
    i = .ksLoad ∨ i = .ksGen := by
  cases h with
  | ksLoad | ksGen => simp
  | ksStep n c d he ha hl => exact absurd hl.symm hc
  | _ => simp at hc

theorem Effect.writes_halves (h : Effect s i u) (hc : u.l ≠ s.l ∨ u.r ≠ s.r) :
    i = .fnStartEnc ∨ i = .fnStartDec ∨ i = .fnRound ∨ i = .encBlock ∨ i = .decBlock := by
  cases h with
  | fnStart _ _ _ _ hi => rcases hi with rfl | rfl <;> simp
  | fnRound => simp
  | block _ _ _ _ hi => rcases hi with rfl | rfl <;> simp
  | _ => simp at hc

/-- R204: FN_ROUND leaves BLK_ACTIVE, which it has checked to be 1, and BLK_DIR. -/
theorem Effect.writes_blkActive_blkDir (h : Effect s i u)
    (hc : u.status.blkActive ≠ s.status.blkActive ∨ u.status.blkDir ≠ s.status.blkDir) :
    i = .fnStartEnc ∨ i = .fnStartDec ∨ i = .fnFinish := by
  cases h with
  | fnStart _ _ _ _ hi => rcases hi with rfl | rfl <;> simp
  | fnFinish => simp
  | fnRound n l r he ha => simp [ha] at hc
  | _ => simp at hc

/-- R75: a command without a result leaves DOUT, unless it faults. -/
theorem Effect.dout_eq (h : Effect s i u)
    (hi : i = .nop ∨ i = .ksLoad ∨ i = .ksStep ∨ i = .ksGen ∨ i = .fnStartEnc ∨ i = .fnStartDec ∨ i = .fnRound)
    (he : u.status.err = s.status.err) : u.dout = s.dout := by
  cases h with
  | fault _ _ hr => simp [hr] at he
  | result _ _ ho => rcases hi with rfl | rfl | rfl | rfl | rfl | rfl | rfl <;> cases ho
  | fnFinish => simp at hi
  | block _ _ _ _ hb => rcases hb with rfl | rfl <;> simp at hi
  | _ => rfl

/-! ### The counters -/

/-- R24: the key-schedule counter starts at 0, ends at 16, and a step moves it by one. -/
theorem Effect.ksCnt_moves (h : Effect s i u) :
    u.status.ksCnt = s.status.ksCnt ∨ i = .ksLoad ∧ u.status.ksCnt = 0 ∨ i = .ksGen ∧ u.status.ksCnt = 16 ∨
      i = .ksStep ∧ u.status.ksCnt.val = s.status.ksCnt.val + 1 := by
  cases h with
  | ksLoad => exact .inr (.inl ⟨rfl, rfl⟩)
  | ksGen => exact .inr (.inr (.inl ⟨rfl, rfl⟩))
  | ksStep n _ _ _ _ _ hn => exact .inr (.inr (.inr ⟨rfl, by simp [hn]⟩))
  | _ => exact .inl rfl

/-- R24: the block counter is cleared where a block opens or closes, and a round moves it by one. -/
theorem Effect.blkCnt_moves (h : Effect s i u) :
    u.status.blkCnt = s.status.blkCnt ∨
      (i = .fnStartEnc ∨ i = .fnStartDec ∨ i = .fnFinish) ∧ u.status.blkCnt = 0 ∨
      i = .fnRound ∧ u.status.blkCnt.val = s.status.blkCnt.val + 1 := by
  cases h with
  | fnStart _ _ _ _ hi => exact .inr (.inl ⟨by rcases hi with rfl | rfl <;> simp, rfl⟩)
  | fnFinish => exact .inr (.inl ⟨.inr (.inr rfl), rfl⟩)
  | fnRound n _ _ _ _ hn => exact .inr (.inr ⟨rfl, by simp [hn]⟩)
  | _ => exact .inl rfl

theorem Effect.writes_blkCnt (h : Effect s i u) (hc : u.status.blkCnt ≠ s.status.blkCnt) :
    i = .fnStartEnc ∨ i = .fnStartDec ∨ i = .fnRound ∨ i = .fnFinish := by
  rcases h.blkCnt_moves with hs | ⟨rfl | rfl | rfl, -⟩ | ⟨rfl, -⟩
  · exact absurd hs hc
  all_goals simp

/-! ### Round keys -/

/-- R29 item 3 gives a step an entry that holds nothing: the one of the step after those taken. -/
theorem rk_next_none (h : s.RkIffStepped) {n : Fin 16} (hn : s.status.ksCnt.val = n.val) : s.rk[n.val] = none := by
  by_contra hk
  have := ((h n).1 hk).2
  omega

/-- R153, R155: a round key that stands is overwritten by KS_LOAD and KS_GEN only. -/
theorem Effect.rk_stays (h : Effect s i u) (hrk : s.RkIffStepped) {n : Fin 16} {k : RoundKey}
    (hk : s.rk[n.val] = some k) (hl : i ≠ .ksLoad) (hg : i ≠ .ksGen) : u.rk[n.val] = some k := by
  cases h with
  | ksLoad => exact absurd rfl hl
  | ksGen => exact absurd rfl hg
  | ksStep m _ _ _ _ _ hm =>
    have hne : m.val ≠ n.val := by
      intro he
      have hnone := rk_next_none hrk (hm.trans he)
      rw [hk] at hnone
      cases hnone
    simpa [Vector.getElem_set_ne _ _ hne] using hk
  | _ => exact hk

/-! ### Halted engines -/

/-- R243: on a halted engine a command moves DOUT at most, by STATUS_READ. -/
theorem Effect.halted (h : Effect s i u) (he : s.status.err = true) : ∃ x, u = { s with dout := x } := by
  cases h with
  | same => exact ⟨s.dout, rfl⟩
  | result _ v => exact ⟨some v, rfl⟩
  | fault _ _ hr | ksLoad hr | ksStep _ _ _ hr | ksGen hr | fnStart _ _ _ _ _ hr | fnRound _ _ _ hr | fnFinish _ hr
  | block _ _ _ _ _ hr => simp [he] at hr

/-- R26, R243: a step of a halted engine that is no reset moves DOUT, the ports and the host's list at most. -/
theorem step_halted (he : s.status.err = true) (h : step s = .next u) (hr : ¬ s.resetNext) :
    ∃ x t rest, u = { s with dout := x, port := t, inbox := rest } := by
  rcases step_cases h with ⟨-, rfl⟩ | ⟨p, rest, hp, -⟩ | ⟨t, rest, i, -, -, -, hx⟩ | ⟨t, rest, e, -, -, hf, -⟩
  · exact ⟨_, _, _, rfl⟩
  · exact absurd ⟨p, rest, hp⟩ hr
  · obtain ⟨x, rfl⟩ := (exec_effect i hx).halted he
    exact ⟨x, t, rest, rfl⟩
  · simp [he] at hf

/-! ### Reset -/

@[simp] theorem State.resetRegisters_rk_getElem (s : State) (i : Fin 16) : s.resetRegisters.rk[i.val] = none :=
  Vector.getElem_replicate i.isLt

/-- R280: a reset takes the engine to the state of R31, whatever the engine or the host had in progress. -/
theorem step_reset {p : Option Transaction} {rest : List HostEvent} (h : s.pending = .reset p :: rest) :
    step s = .next ((s.present (p.getD s.port) rest).resetRegisters) := by
  simp [step, stepEngine, h, takeEvent]

/-! ### Steps -/

theorem step_tables_eq (h : step s = .next u) : u.tables = s.tables := by
  rcases step_cases h with ⟨-, rfl⟩ | ⟨p, rest, -, rfl⟩ | ⟨t, rest, i, -, -, -, hx⟩ | ⟨t, rest, e, -, -, -, rfl⟩
  · rfl
  · rfl
  · exact (exec_effect i hx).outside_eq.1
  · rfl

end Sys2Proof.Machine
end

section
/-! From the invariants of R29 no command reads a register that holds none (spec 10_state R23, R29; 60 R241; log 6). -/

namespace Sys2Proof.Machine

variable {s : State}

/-- The result is a next state: the model does not stop. -/
def Completes (r : Result) : Prop := ∃ u, r = .next u

@[simp] theorem completes_next (u : State) : Completes (.next u) := ⟨u, rfl⟩

/-! ### The shared operations -/

theorem unlessHalted_completes {go : Result} (h : Completes go) : Completes (unlessHalted s go) := by
  cases he : s.status.err <;> simp [he, h]

theorem failIf_completes {bad : Bool} {k : Cause} {go : Result} (h : bad = false → Completes go) :
    Completes (failIf bad k s go) := by
  cases bad
  · exact h rfl
  · exact completes_next _

theorem withDin_completes {n : Nat} {f : BitVec n → Result} (h : ∀ v, Completes (f v)) : Completes (withDin n s f) :=
  failIf_completes fun _ => h _

theorem openBlock_completes {go : Result} (h : s.status.ksCnt = 16 → Completes go) : Completes (openBlock s go) :=
  failIf_completes fun _ => failIf_completes fun hc => h (by simpa using hc)

theorem withValue_completes {α : Type} {r : Option α} {f : α → Result} (hr : r ≠ none) (h : ∀ v, Completes (f v)) :
    Completes (withValue r f) := by
  obtain ⟨v, rfl⟩ := Option.ne_none_iff_exists'.1 hr
  exact h v

/-! ### What the invariants say of the registers a command reads -/

theorem cd_ne_none (h : s.CdIffLoaded) (hl : s.status.ksLoaded = true) : s.c ≠ none ∧ s.d ≠ none := by
  have hc : s.c ≠ none := fun hc => by simp [h.1.2 hc] at hl
  exact ⟨hc, fun hd => hc (h.2.2 hd)⟩

/-- R29 items 2 and 3: a full schedule has every round key. -/
theorem rk_ne_none (hu : s.NoStepsUnloaded) (hrk : s.RkIffStepped) (hc : s.status.ksCnt = 16) (i : Fin 16) :
    s.rk[i.val] ≠ none := by
  have hl : s.status.ksLoaded = true := by
    by_contra hl
    have := hu (by simpa using hl)
    rw [hc] at this
    exact absurd this (by decide)
  exact (hrk i).2 ⟨hl, by rw [hc]; exact i.isLt⟩

/-! ### The commands -/

theorem execKsStep_completes (h : s.CdIffLoaded) : Completes (execKsStep s) := by
  refine unlessHalted_completes (failIf_completes fun _ => failIf_completes fun hl => ?_)
  obtain ⟨hc, hd⟩ := cd_ne_none h (by simpa using hl)
  split
  · exact completes_next _
  · exact withValue_completes hc fun _ => withValue_completes hd fun _ => completes_next _

theorem execCdRead_completes (h : s.CdIffLoaded) : Completes (execCdRead s) := by
  refine unlessHalted_completes (failIf_completes fun hl => ?_)
  obtain ⟨hc, hd⟩ := cd_ne_none h (by simpa using hl)
  exact withValue_completes hc fun _ => withValue_completes hd fun _ => completes_next _

theorem execFnRound_completes (hu : s.NoStepsUnloaded) (hrk : s.RkIffStepped) (hb : s.BlockHasHalves) :
    Completes (execFnRound s) := by
  refine unlessHalted_completes (failIf_completes fun ha => ?_)
  obtain ⟨hl, hr, hc⟩ := hb (by simpa using ha)
  split
  · exact completes_next _
  · exact withValue_completes hl fun _ => withValue_completes hr fun _ =>
      withValue_completes (rk_ne_none hu hrk hc _) fun _ => completes_next _

theorem execFnFinish_completes (hb : s.BlockHasHalves) : Completes (execFnFinish s) := by
  refine unlessHalted_completes (failIf_completes fun ha => failIf_completes fun _ => ?_)
  obtain ⟨hl, hr, -⟩ := hb (by simpa using ha)
  exact withValue_completes hl fun _ => withValue_completes hr fun _ => completes_next _

theorem execLrRead_completes (h : s.LIffR) : Completes (execLrRead s) := by
  refine unlessHalted_completes ?_
  split
  · exact completes_next _
  · rename_i l hl
    have hr : s.r ≠ none := fun hr => by simp [h.2 hr] at hl
    exact withValue_completes hr fun _ => completes_next _

theorem roundKeys?_ne_none (hu : s.NoStepsUnloaded) (hrk : s.RkIffStepped) (hc : s.status.ksCnt = 16) :
    roundKeys? s ≠ none := by
  obtain ⟨ks, hks⟩ := roundKeys?_isSome (rk_ne_none hu hrk hc)
  simp [hks]

/-- R23, R241: from the invariants every command passes or faults; none reads a register that holds none. -/
theorem exec_completes (h : s.Inv) (i : Instr) : Completes (exec i s) := by
  obtain ⟨hcd, hu, hrk, hb, -, -, hlr⟩ := h
  cases i with
  | nop | statusRead => exact completes_next _
  | permPc1 | permPc2 | permE | permP | permIp | permIip | sbox | slayer | roundF =>
    exact unlessHalted_completes (withDin_completes fun _ => completes_next _)
  | ksLoad | ksGen =>
    exact unlessHalted_completes (withDin_completes fun _ => failIf_completes fun _ => completes_next _)
  | ksStep => exact execKsStep_completes hcd
  | cdRead => exact execCdRead_completes hcd
  | rkRead ii =>
    refine unlessHalted_completes ?_
    split <;> exact completes_next _
  | fnStartEnc | fnStartDec =>
    exact unlessHalted_completes (withDin_completes fun _ => openBlock_completes fun _ => completes_next _)
  | fnRound => exact execFnRound_completes hu hrk hb
  | fnFinish => exact execFnFinish_completes hb
  | encBlock | decBlock =>
    exact unlessHalted_completes (withDin_completes fun _ => openBlock_completes fun hc =>
      withValue_completes (roundKeys?_ne_none hu hrk hc) fun _ => completes_next _)
  | lrRead => exact execLrRead_completes hlr

theorem runCommand_completes (h : s.Inv) : Completes (runCommand s) := by
  unfold runCommand
  split
  · exact exec_completes h _
  · exact unlessHalted_completes (completes_next _)

/-- The invariants do not speak of the ports and the host's list. -/
theorem State.Inv.present (h : s.Inv) (t : Transaction) (rest : List HostEvent) : (s.present t rest).Inv := h

theorem step_completes (h : s.Inv) : Completes (step s) := by
  unfold step stepEngine
  split
  · exact completes_next _
  · rename_i e rest _
    cases e with
    | command t => exact runCommand_completes (h.present t rest)
    | reset p => exact completes_next _

end Sys2Proof.Machine
end

section
/-! The statements about the state (spec 10_state; 70 R280, R292). -/

namespace Sys2Proof.Machine

/-- Settles O10: a reset at the head of the host's list is taken at once and leaves the registers of R31; a halted
engine that takes no reset keeps STATUS. -/
theorem resetEmptiesEveryRegisterAndAloneEndsTheHalt :
    Obligations.ResetEmptiesEveryRegisterAndAloneEndsTheHalt := by
  constructor
  · intro s p rest hi
    exact ⟨_, step_reset (pending_of_taken hi rfl), rfl, rfl, State.resetRegisters_rk_getElem _, rfl, rfl, rfl,
      Status.word_zero, rfl, rfl, rfl, rfl, rfl, rfl, rfl, rfl, rfl⟩
  · intro s u he h hu
    by_contra hr
    obtain ⟨x, t, rest, rfl⟩ := step_halted he h hr
    simp [he] at hu

/-- Settles O14: by the frame of a halted engine's step, and by the state a reset leaves. -/
theorem firstFaultStaysRecordedUntilReset : Obligations.FirstFaultStaysRecordedUntilReset := by
  intro s u he h
  constructor
  · intro hr
    obtain ⟨x, t, rest, rfl⟩ := step_halted he h hr
    exact ⟨rfl, rfl, rfl, rfl, rfl, rfl⟩
  · rintro ⟨p, rest, hp⟩
    rw [step_reset hp] at h
    cases h
    exact ⟨rfl, rfl⟩

/-- Settles O49: command by command, the invariants give every register that is read. -/
theorem everyStepFromTheInvariantsCompletes : Obligations.EveryStepFromTheInvariantsCompletes :=
  fun _ h => step_completes h

/-- Settles O53: by what a step can do. -/
theorem noStepChangesTheTables : Obligations.NoStepChangesTheTables :=
  fun _ _ h => step_tables_eq h

/-- Settles O54: from the frame lemmas of the effects, one per group of registers. -/
theorem onlyTheNamedCommandsWriteEachRegister : Obligations.OnlyTheNamedCommandsWriteEachRegister := by
  intro i s u h
  have hx := exec_effect i h
  obtain ⟨ht, hp, hi⟩ := hx.outside_eq
  exact ⟨ht, hp, hi, hx.writes_schedule, hx.writes_ksLoaded, hx.writes_halves, hx.writes_blkActive_blkDir,
    hx.writes_blkCnt, hx.dout_eq⟩

/-- Settles O55: from the moves of the two counters in an effect. -/
theorem countersMoveOneStepAtATime : Obligations.CountersMoveOneStepAtATime :=
  fun i _ _ h => ⟨(exec_effect i h).ksCnt_moves, (exec_effect i h).blkCnt_moves⟩

/-- Settles O56: a KS_STEP writes an entry that holds nothing, so a key that stands is not overwritten. -/
theorem roundKeysStayUntilANewSchedule : Obligations.RoundKeysStayUntilANewSchedule := by
  intro i s u n k hinv h hk hl hg
  obtain ⟨-, -, hrk, -⟩ := hinv
  exact (exec_effect i h).rk_stays hrk hk hl hg

/-- Settles O51: no key is loaded at reset, so the statement's premise fails there, as its title says. -/
theorem oneScheduleHoldsAtReset : Obligations.OneScheduleHoldsAtReset :=
  fun hl => nomatch hl

end Sys2Proof.Machine
end

section
/-! A step on a command word (spec 20_memory R59; 30_encoding R70, R83). -/

namespace Sys2Proof.Machine

variable {s : State} {t : Transaction} {rest : List HostEvent}

/-- The engine takes a command unless it is stuck for the word (R243). -/
theorem ignores_command_eq_false (h : ¬ (s.status.err = true ∧ t.cmd ≠ 0x0000 ∧ t.cmd ≠ 0x0100)) :
    s.ignores (.command t) = false :=
  Bool.eq_false_iff.2 fun hs => h (stuckOn_eq_true.1 hs)

theorem runCommand_of_decode_ok {i : Instr} (h : decode s.port.cmd = .ok i) : runCommand s = exec i s := by
  simp [runCommand, h]

/-- R70: the step on a command the engine takes is that command's, with the transaction on the ports. -/
theorem step_command (h : s.pending = .command t :: rest) : step s = runCommand (s.present t rest) := by
  simp [step, stepEngine, h, takeEvent]

/-- Settles O8: a word the engine is not stuck for is the next event it takes, and the word decodes. -/
theorem stepRunsTheDecodedCommand : Obligations.StepRunsTheDecodedCommand := by
  intro s t rest i hi hd hs
  calc step s = runCommand (s.present t rest) := step_command (pending_of_taken hi (ignores_command_eq_false hs))
    _ = exec i (s.present t rest) := runCommand_of_decode_ok hd

end Sys2Proof.Machine
end

section
/-! What the decoder answers (spec 30_encoding R71 to R74, R79 to R82). -/

namespace Sys2Proof

/-! ### The fields of a word -/

@[simp] theorem opcField_append (a b : Octet) : opcField (a ++ b : CmdWord) = a := by
  apply BitVec.eq_of_getLsbD_eq
  intro i hi
  rw [opcField, BitVec.getLsbD_extractLsb', @BitVec.getLsbD_append 8 8]
  simp [hi]

@[simp] theorem argField_append (a b : Octet) : argField (a ++ b : CmdWord) = b := by
  apply BitVec.eq_of_getLsbD_eq
  intro i hi
  rw [argField, BitVec.getLsbD_extractLsb', @BitVec.getLsbD_append 8 8]
  simp [hi]

@[simp] theorem opcField_append_argField (w : CmdWord) : (opcField w ++ argField w : CmdWord) = w := by
  apply BitVec.eq_of_getLsbD_eq
  intro i hi
  rw [@BitVec.getLsbD_append 8 8, opcField, argField, BitVec.getLsbD_extractLsb', BitVec.getLsbD_extractLsb']
  by_cases h : i < 8
  · simp [h]
  · simp [h, show i - 8 < 8 by omega, show 8 + (i - 8) = i by omega]

/-- A word is its two fields (R71). -/
theorem eq_append_iff {w : CmdWord} {a b : Octet} : w = (a ++ b : CmdWord) ↔ opcField w = a ∧ argField w = b := by
  constructor
  · rintro rfl
    simp
  · rintro ⟨rfl, rfl⟩
    simp

theorem opcField_and (v w : CmdWord) : opcField (v &&& w) = opcField v &&& opcField w := by
  simp [opcField, BitVec.extractLsb'_and]

theorem argField_and (v w : CmdWord) : argField (v &&& w) = argField v &&& argField w := by
  simp [argField, BitVec.extractLsb'_and]

theorem toNat_opcField (w : CmdWord) : (opcField w).toNat = w.toNat / 256 := by
  have hw := w.isLt
  rw [opcField, BitVec.extractLsb'_toNat, Nat.shiftRight_eq_div_pow]
  exact Nat.mod_eq_of_lt (by omega)

theorem toNat_argField (w : CmdWord) : (argField w).toNat = w.toNat % 256 := by
  simp [argField]

/-! ### Assigned operation codes -/

theorem assigned_argOf (i : Instr) : assigned (opcodeOf i) (argOf i) = some i := by
  cases i with
  | sbox kk => revert kk; decide
  | rkRead ii => revert ii; decide
  | _ => rfl

theorem argOf_and_reservedArgBits (i : Instr) : argOf i &&& reservedArgBits i = 0#8 := by
  cases i with
  | sbox kk => revert kk; decide
  | rkRead ii => revert ii; decide
  | _ => rfl

/-- R80: a command's operation code selects a command whatever the argument, and with it the format. -/
theorem assigned_opcodeOf (i : Instr) (arg : Octet) :
    ∃ j, assigned (opcodeOf i) arg = some j ∧ reservedArgBits j = reservedArgBits i := by
  cases i <;> exact ⟨_, rfl, rfl⟩

theorem opcodeOf_of_assigned {opc arg : Octet} {i : Instr} (h : assigned opc arg = some i) : opc = opcodeOf i := by
  unfold assigned at h
  split at h <;> cases h <;> rfl

/-- R72: the selector fields and the reserved bits are the whole of `ARG`. -/
theorem argOf_of_assigned {opc arg : Octet} {i : Instr} (h : assigned opc arg = some i)
    (hr : arg &&& reservedArgBits i = 0#8) : arg = argOf i := by
  obtain rfl := opcodeOf_of_assigned h
  cases i with
  | sbox kk =>
    cases h
    revert arg; decide
  | rkRead ii =>
    cases h
    revert arg; decide
  | _ => exact BitVec.and_allOnes.symm.trans hr

/-! ### Decoding -/

theorem decode_eq_ok {w : CmdWord} {i : Instr} :
    decode w = .ok i ↔ assigned (opcField w) (argField w) = some i ∧ argField w &&& reservedArgBits i = 0#8 := by
  unfold decode
  cases assigned (opcField w) (argField w) with
  | none => simp
  | some j =>
    by_cases hr : argField w &&& reservedArgBits j = 0#8
    · simp only [hr, if_true, Except.ok.injEq, Option.some.injEq]
      exact ⟨fun h => ⟨h, h ▸ hr⟩, And.left⟩
    · simp only [hr, if_false, reduceCtorEq, Option.some.injEq, false_iff, not_and]
      rintro rfl
      exact hr

theorem decode_eq_illegalOpcode {w : CmdWord} (h : ∀ i, opcField w ≠ opcodeOf i) :
    decode w = .error .illegalOpcode := by
  have hn : assigned (opcField w) (argField w) = none :=
    Option.eq_none_iff_forall_ne_some.2 fun i hi => h i (opcodeOf_of_assigned hi)
  simp [decode, hn]

theorem decode_eq_reservedArg {w : CmdWord} {i : Instr} (ho : opcField w = opcodeOf i)
    (ha : argField w &&& reservedArgBits i ≠ 0#8) : decode w = .error .reservedArg := by
  obtain ⟨j, hj, hr⟩ := assigned_opcodeOf i (argField w)
  simp [decode, ho, hj, hr, ha]

/-- R71, R72, R79: the two fields of a word that decodes are those of the command's word. -/
theorem decode_eq_ok_iff_eq_encode (w : CmdWord) (i : Instr) : decode w = .ok i ↔ w = encode i := by
  constructor
  · intro h
    obtain ⟨ha, hr⟩ := decode_eq_ok.1 h
    exact eq_append_iff.2 ⟨opcodeOf_of_assigned ha, argOf_of_assigned ha hr⟩
  · rintro rfl
    rw [decode_eq_ok]
    simp [encode, assigned_argOf, argOf_and_reservedArgBits]

theorem decode_encode (i : Instr) : decode (encode i) = .ok i := (decode_eq_ok_iff_eq_encode _ i).2 rfl

/-! ### Rows of the opcode map -/

/-- A row whose mask is all of the word, as every row of format N. -/
theorem decode_eq_ok_iff_and_eq {i : Instr} {c : CmdWord} (hc : encode i = c) (w : CmdWord) :
    decode w = .ok i ↔ w &&& 0xFFFF = c := by
  rw [decode_eq_ok_iff_eq_encode, hc, show w &&& 0xFFFF = w from BitVec.and_allOnes]

/-- A row whose mask is the operation code and the reserved bits of the argument. -/
theorem and_row_eq_iff (i : Instr) (w : CmdWord) :
    w &&& (0xFF#8 ++ reservedArgBits i : CmdWord) = (opcodeOf i ++ 0#8 : CmdWord) ↔
      opcField w = opcodeOf i ∧ argField w &&& reservedArgBits i = 0#8 := by
  rw [eq_append_iff, opcField_and, argField_and, opcField_append, argField_append,
    show opcField w &&& 0xFF#8 = opcField w from BitVec.and_allOnes]

/-- The row of a command with a selector, whose mask leaves the selector open: the commands `mk a`, with `i` one of them
and `sel` the field they are read from. -/
theorem exists_decode_eq_ok_iff {α : Type} (mk : α → Instr) (sel : Octet → α) (i : Instr)
    (ho : ∀ a, opcodeOf (mk a) = opcodeOf i) (hr : ∀ a, reservedArgBits (mk a) = reservedArgBits i)
    (hs : ∀ arg, assigned (opcodeOf i) arg = some (mk (sel arg))) (w : CmdWord) :
    (∃ a, decode w = .ok (mk a)) ↔
      w &&& (0xFF#8 ++ reservedArgBits i : CmdWord) = (opcodeOf i ++ 0#8 : CmdWord) := by
  rw [and_row_eq_iff]
  constructor
  · rintro ⟨a, h⟩
    obtain ⟨ha, hz⟩ := decode_eq_ok.1 h
    exact ⟨(opcodeOf_of_assigned ha).trans (ho a), hr a ▸ hz⟩
  · rintro ⟨hop, hz⟩
    exact ⟨sel (argField w), decode_eq_ok.2 ⟨hop ▸ hs _, (hr _).symm ▸ hz⟩⟩

theorem exists_decode_eq_sbox_iff (w : CmdWord) : (∃ kk, decode w = .ok (.sbox kk)) ↔ w &&& 0xFFF8 = 0x2000 :=
  exists_decode_eq_ok_iff .sbox kkOf (.sbox 0) (fun _ => rfl) (fun _ => rfl) (fun _ => rfl) w

theorem exists_decode_eq_rkRead_iff (w : CmdWord) : (∃ ii, decode w = .ok (.rkRead ii)) ↔ w &&& 0xFFF0 = 0x3300 :=
  exists_decode_eq_ok_iff .rkRead iiOf (.rkRead 0) (fun _ => rfl) (fun _ => rfl) (fun _ => rfl) w

end Sys2Proof
end

section
/-! The statements on words: what a word decodes to (spec 30_encoding R71 to R74, R79). -/

namespace Sys2Proof

/-- Settles O1: the operation code and the argument of a word that decodes are those of the command. -/
theorem decodeAnswersCommandExactlyOnItsWord : Obligations.DecodeAnswersCommandExactlyOnItsWord :=
  decode_eq_ok_iff_eq_encode

/-- Settles O2: in format N the mask is the whole word, so the row is the command's one word; in the rows of SBOX and
RK_READ the mask leaves the selector open. -/
theorem wordSelectsCommandIffItsRowMatches : Obligations.WordSelectsCommandIffItsRowMatches := by
  intro w
  refine ⟨?_, ?_, ?_, ?_, ?_, ?_, ?_, ?_, exists_decode_eq_sbox_iff w, ?_, ?_, ?_, ?_, exists_decode_eq_rkRead_iff w, ?_,
    ?_, ?_, ?_, ?_, ?_, ?_, ?_, ?_⟩ <;> exact decode_eq_ok_iff_and_eq rfl w

/-- Settles O3: a word that decodes to SBOX or RK_READ is that command's word, and the words run through the field. -/
theorem selectorsAreTheArgumentField : Obligations.SelectorsAreTheArgumentField := by
  intro w
  refine ⟨fun kk h => ?_, fun ii h => ?_, fun f hf hw => ?_, fun f hf hw => ?_⟩
  · have he : ∀ kk : Fin 8, kk.val + 1 = (encode (.sbox kk)).toNat % 8 + 1 := by decide
    exact (decode_eq_ok_iff_eq_encode w _).1 h ▸ he kk
  · have he : ∀ ii : Fin 16, ii.val + 1 = (encode (.rkRead ii)).toNat % 16 + 1 := by decide
    exact (decode_eq_ok_iff_eq_encode w _).1 h ▸ he ii
  · have he : ∀ kk : Fin 8, 0x2000 + BitVec.ofNat 16 kk.val = encode (.sbox kk) := by decide
    exact ⟨⟨f, hf⟩, (decode_eq_ok_iff_eq_encode w _).2 (hw.trans (he ⟨f, hf⟩)), rfl⟩
  · have he : ∀ ii : Fin 16, 0x3300 + BitVec.ofNat 16 ii.val = encode (.rkRead ii) := by decide
    exact ⟨⟨f, hf⟩, (decode_eq_ok_iff_eq_encode w _).2 (hw.trans (he ⟨f, hf⟩)), rfl⟩

/-- Settles O5: each word is the word of its command. -/
theorem writtenOutWordsDecode : Obligations.WrittenOutWordsDecode :=
  ⟨decode_encode .nop, decode_encode .permE, decode_encode (.sbox 5), decode_encode (.rkRead 15), decode_encode .roundF,
    decode_encode .decBlock⟩

end Sys2Proof
end

section
/-! Words that select no command (spec 30_encoding R80, R81; 60 R242). -/

namespace Sys2Proof

/-- The operation codes R80 lists as unassigned. -/
def UnassignedCode (o : Nat) : Prop :=
  0x02 ≤ o ∧ o ≤ 0x0F ∨ 0x16 ≤ o ∧ o ≤ 0x1F ∨ 0x22 ≤ o ∧ o ≤ 0x2F ∨ 0x35 ≤ o ∧ o ≤ 0x3F ∨
    0x41 ≤ o ∧ o ≤ 0x4F ∨ 0x57 ≤ o ∧ o ≤ 0xFF

theorem not_unassignedCode_opcodeOf (i : Instr) : ¬ UnassignedCode (opcodeOf i).toNat := by
  unfold UnassignedCode
  cases i with
  | sbox | rkRead => simp [opcodeOf]
  | _ => decide

theorem decode_of_unassignedCode {w : CmdWord} (h : UnassignedCode (w.toNat / 256)) :
    decode w = .error .illegalOpcode :=
  decode_eq_illegalOpcode fun i hi => not_unassignedCode_opcodeOf i (by rwa [← hi, toNat_opcField])

/-- The commands of format N (R72). -/
def formatN : List Instr :=
  [.nop, .statusRead, .permPc1, .permPc2, .permE, .permP, .permIp, .permIip, .slayer, .ksLoad, .ksStep, .ksGen, .cdRead,
    .roundF, .fnStartEnc, .fnStartDec, .fnRound, .fnFinish, .encBlock, .decBlock, .lrRead]

theorem reservedArgBits_of_formatN : ∀ i ∈ formatN, reservedArgBits i = 0xFF#8 := by decide

theorem and_sbox_reserved_ne_zero : ∀ arg : Octet, arg.toNat / 8 ≠ 0 → arg &&& 0xF8#8 ≠ 0#8 := by decide

theorem and_rkRead_reserved_ne_zero : ∀ arg : Octet, arg.toNat / 16 ≠ 0 → arg &&& 0xF0#8 ≠ 0#8 := by decide

theorem decode_of_reservedArgBit {w : CmdWord} {i : Instr} (ho : w.toNat / 256 = (opcodeOf i).toNat)
    (ha : argField w &&& reservedArgBits i ≠ 0#8) : decode w = .error .reservedArg :=
  decode_eq_reservedArg (BitVec.eq_of_toNat_eq ((toNat_opcField w).trans ho)) ha

/-- R81 in format N: every bit of `ARG` is reserved. -/
theorem decode_of_formatN_argBit {w : CmdWord} (hc : ∃ i ∈ formatN, w.toNat / 256 = (opcodeOf i).toNat)
    (ha : w.toNat % 256 ≠ 0) : decode w = .error .reservedArg := by
  obtain ⟨i, hi, ho⟩ := hc
  refine decode_of_reservedArgBit ho fun hz => ha ?_
  rw [reservedArgBits_of_formatN i hi, show argField w &&& 0xFF#8 = argField w from BitVec.and_allOnes] at hz
  rw [← toNat_argField, hz]
  rfl

namespace Machine

variable {s : State} {t : Transaction} {rest : List HostEvent}

/-- A running engine takes a word that decodes to nothing as the fault of its rejection. -/
theorem step_of_decode_error {e : DecodeError} (he : s.status.err = false) (hi : s.inbox = .command t :: rest)
    (hd : decode t.cmd = .error e) : step s = .next ((s.present t rest).enterFault (decodeCause e)) := by
  rw [step_command ((pending_running he).trans hi)]
  simp [runCommand, hd, he]

/-- Settles O6: the ranges of R80 hold no command's operation code. -/
theorem unassignedOpcodeRaisesIllegalOpcode : Obligations.UnassignedOpcodeRaisesIllegalOpcode :=
  fun _ _ _ he hi ho => step_of_decode_error he hi (decode_of_unassignedCode ho)

/-- Settles O7: each operation code R81 lists is a command's, and the listed bits are those its format reserves. -/
theorem reservedArgBitRaisesReservedArg : Obligations.ReservedArgBitRaisesReservedArg := by
  intro s t rest he hi h
  refine step_of_decode_error (e := .reservedArg) he hi ?_
  rcases h with ⟨ho, ha⟩ | ⟨ho, ha⟩ | ⟨ho, ha⟩ | ⟨ho, ha⟩
  · have hcodes : ∀ o ∈ [0x00, 0x01, 0x10, 0x11, 0x12, 0x13, 0x14, 0x15, 0x21, 0x30, 0x31, 0x32, 0x34, 0x40],
        ∃ i ∈ formatN, o = (opcodeOf i).toNat := by decide
    exact decode_of_formatN_argBit (hcodes _ ho) ha
  · have hcodes : ∀ o ∈ [0x50, 0x51, 0x52, 0x53, 0x54, 0x55, 0x56], ∃ i ∈ formatN, o = (opcodeOf i).toNat := by decide
    exact decode_of_formatN_argBit (hcodes _ ho) ha
  · exact decode_of_reservedArgBit (i := .sbox 0) ho (and_sbox_reserved_ne_zero _ (by rwa [toNat_argField]))
  · exact decode_of_reservedArgBit (i := .rkRead 0) ho (and_rkRead_reserved_ne_zero _ (by rwa [toNat_argField]))

end Machine

end Sys2Proof
end

section
/-! The checks of a command (spec 30_encoding R76, R83; 60 R240, R245), and the output ports (30_encoding R70). -/

namespace Sys2Proof.Machine

variable {s : State}

/-- The checks of a list in order, then `go` (R83). -/
def checked (s : State) : List (Bool × Cause) → Result → Result
  | [], go => go
  | (bad, k) :: rest, go => failIf bad k s (checked s rest go)

/-- R83, R245: the first check that fails decides. -/
theorem checked_of_firstFailing {checks : List (Bool × Cause)} {k : Cause} {go : Result}
    (h : firstFailing checks = some k) : checked s checks go = .next (s.enterFault k) := by
  induction checks with
  | nil => cases h
  | cons c checks ih =>
    obtain ⟨bad, k'⟩ := c
    cases bad with
    | true =>
      cases h
      rfl
    | false => exact ih h

/-- The width check of an `n`-bit field (R76), as `checksOf` states it. -/
theorem withDin_eq_checked {n : Nat} {go : BitVec n → Result} :
    withDin n s go = checked s [(decide (2 ^ n ≤ s.port.din.toNat), .invalidLength)] (go (s.port.din.setWidth n)) := by
  simp [withDin, checked, dinTooLong_eq]

/-- A 64-bit operand has no width check. -/
theorem unlessHalted_withDin_whole {go : Block → Result} (he : s.status.err = false) :
    unlessHalted s (withDin 64 s go) = go s.port.din :=
  (unlessHalted_running he).trans withDin_whole

@[simp] theorem nextIndex?_sixteen : nextIndex? 16 = none := rfl

/-- The last check of KS_STEP is the `none` of `nextIndex?`. -/
theorem execKsStep_eq_checked (he : s.status.err = false) :
    ∃ go, execKsStep s = checked s (checksOf .ksStep s) go := by
  cases hn : nextIndex? s.status.ksCnt with
  | none =>
    exact ⟨.next s, by simp [execKsStep, checksOf, checked, he, nextIndex?_none.1 hn]⟩
  | some n =>
    have h16 : s.status.ksCnt ≠ 16 := fun h => by simp [nextIndex?_none.2 h] at hn
    exact ⟨_, by simp [execKsStep, checksOf, checked, he, hn, h16]; rfl⟩

/-- The last check of FN_ROUND is the `none` of `nextIndex?`. -/
theorem execFnRound_eq_checked (he : s.status.err = false) :
    ∃ go, execFnRound s = checked s (checksOf .fnRound s) go := by
  cases hn : nextIndex? s.status.blkCnt with
  | none =>
    exact ⟨.next s, by simp [execFnRound, checksOf, checked, he, nextIndex?_none.1 hn]⟩
  | some n =>
    have h16 : s.status.blkCnt ≠ 16 := fun h => by simp [nextIndex?_none.2 h] at hn
    exact ⟨_, by simp [execFnRound, checksOf, checked, he, hn, h16]; rfl⟩

theorem execRkRead_eq_checked (he : s.status.err = false) (ii : Fin 16) :
    ∃ go, execRkRead ii s = checked s (checksOf (.rkRead ii) s) go := by
  cases hk : s.rk[ii.val] with
  | none => exact ⟨.next s, by simp [execRkRead, checksOf, checked, he, hk]⟩
  | some k => exact ⟨complete k s, by simp [execRkRead, checksOf, checked, he, hk]⟩

theorem execLrRead_eq_checked (he : s.status.err = false) :
    ∃ go, execLrRead s = checked s (checksOf .lrRead s) go := by
  cases hl : s.l with
  | none => exact ⟨.next s, by simp [execLrRead, checksOf, checked, he, hl]⟩
  | some l => exact ⟨_, by simp [execLrRead, checksOf, checked, he, hl]; rfl⟩

/-- R83, R241: on a running engine a command is its checks in order, then its action. -/
theorem exec_eq_checked (he : s.status.err = false) (i : Instr) : ∃ go, exec i s = checked s (checksOf i s) go := by
  cases i with
  | nop | statusRead | permPc1 | permIp | permIip => exact ⟨_, rfl⟩
  | permPc2 | permE | permP | sbox | slayer | roundF => exact ⟨_, (unlessHalted_running he).trans withDin_eq_checked⟩
  | ksLoad | ksGen | fnStartEnc | fnStartDec | encBlock | decBlock => exact ⟨_, unlessHalted_withDin_whole he⟩
  | cdRead | fnFinish => exact ⟨_, unlessHalted_running he⟩
  | ksStep => exact execKsStep_eq_checked he
  | fnRound => exact execFnRound_eq_checked he
  | rkRead ii => exact execRkRead_eq_checked he ii
  | lrRead => exact execLrRead_eq_checked he

/-- Settles O16: the checks of a command stand before its action, so the first that fails decides. -/
theorem firstFailingCheckIsTheFaultTaken : Obligations.FirstFailingCheckIsTheFaultTaken := by
  intro i s k he hk
  obtain ⟨go, hgo⟩ := exec_eq_checked he i
  exact hgo.trans (checked_of_firstFailing hk)

/-- Settles O15: the valid indication is 0 exactly where DOUT is none, and the STATUS port is the word STATUS_READ
returns. -/
theorem outputPortsShowDoutAndStatus : Obligations.OutputPortsShowDoutAndStatus :=
  fun _ => ⟨Option.isSome_eq_false_iff.trans Option.isNone_iff_eq_none, rfl, rfl⟩

end Sys2Proof.Machine
end

section
/-! Runs of several commands (spec 30_encoding R86): a fault or a halt ends a run, and a command repeated 16 times walks
a counter from 0 to 16. -/

namespace Sys2Proof.Machine

variable {s u : State} {k : Cause} {i : Instr} {rest : List Instr}

/-- The commands still to run after a result. -/
def andThen (r : Result) (rest : List Instr) : Result :=
  match r with
  | .next s => execAll rest s
  | .fault f => .fault f
  | .refused f => .refused f

@[simp] theorem execAll_nil (s : State) : execAll [] s = .next s := rfl

theorem execAll_cons (i : Instr) (rest : List Instr) (s : State) : execAll (i :: rest) s = andThen (exec i s) rest := rfl

theorem execAll_cons_next (h : exec i s = .next u) : execAll (i :: rest) s = execAll rest u := by
  rw [execAll_cons, h]
  rfl

/-- R243: a halted engine executes none but NOP, which changes nothing, and STATUS_READ. -/
theorem exec_halted (he : s.status.err = true) (hi : i ≠ .statusRead) : exec i s = .next s := by
  cases i with
  | statusRead => exact absurd rfl hi
  | nop => rfl
  | _ => exact unlessHalted_halted he

theorem execAll_halted (he : s.status.err = true) (hr : .statusRead ∉ rest) : execAll rest s = .next s := by
  induction rest with
  | nil => rfl
  | cons i rest ih =>
    obtain ⟨hi, hr⟩ := List.ne_and_not_mem_of_not_mem_cons hr
    rw [execAll_cons_next (exec_halted he hi.symm), ih hr]

/-! ### A fault or a halt ends a run -/

theorem andThen_unlessHalted {go : Result} (hr : .statusRead ∉ rest) :
    andThen (unlessHalted s go) rest = unlessHalted s (andThen go rest) := by
  cases he : s.status.err with
  | true => simp [he, andThen, execAll_halted he hr]
  | false => simp [he]

theorem andThen_failIf {bad : Bool} {go : Result} (hr : .statusRead ∉ rest) :
    andThen (failIf bad k s go) rest = failIf bad k s (andThen go rest) := by
  cases bad with
  | true => exact execAll_halted rfl hr
  | false => rfl

theorem andThen_openBlock {go : Result} (hr : .statusRead ∉ rest) :
    andThen (openBlock s go) rest = openBlock s (andThen go rest) := by
  rw [openBlock, andThen_failIf hr, andThen_failIf hr, openBlock]

theorem unlessHalted_congr {a b : Result} (h : s.status.err = false → a = b) : unlessHalted s a = unlessHalted s b := by
  cases he : s.status.err with
  | true => simp [he]
  | false => rw [h he]

theorem failIf_congr {bad : Bool} {a b : Result} (h : bad = false → a = b) : failIf bad k s a = failIf bad k s b := by
  cases bad with
  | true => rfl
  | false => exact h rfl

theorem openBlock_congr {a b : Result} (h : s.status.blkActive = false → s.status.ksCnt = 16 → a = b) :
    openBlock s a = openBlock s b :=
  failIf_congr fun ha => failIf_congr fun hk => h ha (by simpa using hk)

/-! ### A counter from 0 to 16 -/

theorem execAll_replicate_append {f : Fin 17 → State} (hf : ∀ n : Fin 16, exec i (f n.castSucc) = .next (f n.succ)) :
    execAll (List.replicate 16 i ++ rest) (f 0) = execAll rest (f 16) := by
  have h (m : Nat) : ∀ n : Fin 17, n.val + m = 16 → execAll (List.replicate m i ++ rest) (f n) = execAll rest (f 16) := by
    induction m with
    | zero =>
      intro n hn
      rw [show n = 16 from Fin.ext hn]
      rfl
    | succ m ih =>
      intro n hn
      have hlt : n.val < 16 := by omega
      exact (execAll_cons_next (hf ⟨n.val, hlt⟩)).trans (ih (Fin.succ ⟨n.val, hlt⟩) (by simp; omega))
  exact h 16 0 rfl

end Sys2Proof.Machine
end

section
/-! The key schedule by steps (spec 42_key_schedule_gen R150 to R156): what 16 KS_STEP leave is what KS_GEN writes. -/

namespace Sys2Proof.Machine

variable {s : State}

/-! ### The states between the steps -/

/-- The round-key store with the first `n` keys of a schedule. -/
def firstKeys (ks : Vector RoundKey 16) (n : Nat) : Vector (Option RoundKey) 16 :=
  Vector.ofFn fun j => if j.val < n then some ks[j.val] else none

theorem firstKeys_zero (ks : Vector RoundKey 16) : firstKeys ks 0 = Vector.replicate 16 none := by
  ext j hj : 1
  simp [firstKeys]

theorem firstKeys_succ (ks : Vector RoundKey 16) (n : Fin 16) :
    (firstKeys ks n.val).set n.val (some ks[n.val]) = firstKeys ks (n.val + 1) := by
  ext j hj : 1
  by_cases h : n.val = j
  · subst h
    simp [firstKeys]
  · simp only [firstKeys, Vector.getElem_set_ne _ _ h, Vector.getElem_ofFn, show j < n.val + 1 ↔ j < n.val by omega]

theorem firstKeys_sixteen (ks : Vector RoundKey 16) : firstKeys ks 16 = sixteen fun j => some ks[j.val] := by
  ext j hj : 1
  simp [firstKeys]

/-- `s` with the schedule of a key after `n` steps (R155). -/
def State.afterKsSteps (s : State) (key : RawKey) (n : Fin 17) : State :=
  ((s.setCd (halvesAfter s.tables key n.val).1 (halvesAfter s.tables key n.val).2).setRkStore
    (firstKeys (keySchedule s.tables key) n.val)).setKs n

/-- R155: a KS_STEP that passes its checks. -/
theorem exec_ksStep_passes {n : Fin 16} {c d : CdHalf} (he : s.status.err = false) (ha : s.status.blkActive = false)
    (hl : s.status.ksLoaded = true) (hn : s.status.ksCnt = n.castSucc) (hc : s.c = some c) (hd : s.d = some d) :
    exec .ksStep s = .next (((s.setCd (rotateHalves (c, d) (shiftAt s.tables n.val)).1
      (rotateHalves (c, d) (shiftAt s.tables n.val)).2).setRk n
        (extractKey s.tables (rotateHalves (c, d) (shiftAt s.tables n.val)))).setKs n.succ) := by
  have hi : nextIndex? n.castSucc = some n := nextIndex?_some.2 rfl
  simp [exec, execKsStep, he, ha, hl, hn, hi, hc, hd]

theorem exec_ksStep_afterKsSteps (he : s.status.err = false) (ha : s.status.blkActive = false) (key : RawKey)
    (n : Fin 16) : exec .ksStep (s.afterKsSteps key n.castSucc) = .next (s.afterKsSteps key n.succ) := by
  have hk : (keySchedule s.tables key)[n.val] =
      extractKey s.tables (rotateHalves (halvesAfter s.tables key n.val) (shiftAt s.tables n.val)) := by
    simp [keySchedule, halvesAfter]
  rw [exec_ksStep_passes (s := s.afterKsSteps key n.castSucc) he ha rfl rfl rfl rfl]
  simp only [State.afterKsSteps, Fin.val_succ, ← firstKeys_succ, hk]
  rfl

/-! ### A whole schedule is a full turn (R154) -/

theorem rotl_zero (v : CdHalf) : rotl v 0 = v := by
  simp [rotl, BitVec.ushiftRight_eq_zero]

theorem rotl_full (v : CdHalf) : rotl v 28 = v := by simp [rotl]

theorem rotateHalves_rotateHalves (cd : CdHalf × CdHalf) {a b : Nat} (h : a + b ≤ 28) :
    rotateHalves (rotateHalves cd a) b = rotateHalves cd (a + b) := by
  simp [rotateHalves, rotl_rotl _ h]

/-- R150: the rotations are cumulative. -/
theorem halvesAfter_eq_rotateHalves (T : AdmittedTables) (key : RawKey) {n : Nat} (h : n ≤ 16) :
    halvesAfter T key n = rotateHalves (initialHalves T key) (printedShifts.take n).sum := by
  induction n with
  | zero => simp [halvesAfter, rotateHalves, rotl_zero]
  | succ n ih =>
    have hsum : ∀ n < 16, (printedShifts.take n).sum + printedShifts.getD n 0 = (printedShifts.take (n + 1)).sum ∧
        (printedShifts.take (n + 1)).sum ≤ 28 := by decide
    obtain ⟨hs, hle⟩ := hsum n h
    rw [halvesAfter, ih (by omega), shiftAt_eq, rotateHalves_rotateHalves _ (hs ▸ hle), hs]

theorem halvesAfter_sixteen (T : AdmittedTables) (key : RawKey) : halvesAfter T key 16 = initialHalves T key := by
  rw [halvesAfter_eq_rotateHalves T key (Nat.le_refl 16), show (printedShifts.take 16).sum = 28 from rfl, rotateHalves,
    rotl_full, rotl_full]

theorem afterKsSteps_zero (s : State) (key : RawKey) :
    s.afterKsSteps key 0 = ((s.setCd (initialHalves s.tables key).1 (initialHalves s.tables key).2).setRkStore
      (Vector.replicate 16 none)).setKs 0 := by
  rw [State.afterKsSteps, ← firstKeys_zero]
  rfl

theorem afterKsSteps_sixteen (s : State) (key : RawKey) :
    s.afterKsSteps key 16 = ((s.setCd (initialHalves s.tables key).1 (initialHalves s.tables key).2).setRkStore
      (sixteen fun i => some (keySchedule s.tables key)[i.val])).setKs 16 := by
  rw [← halvesAfter_sixteen, ← firstKeys_sixteen]
  rfl

/-- Settles O30: a halt or a fault of KS_LOAD ends the run; after it the 16 steps walk through the schedule, and C and D
come round to where they began. -/
theorem ksGenEqualsLoadThenSixteenSteps : Obligations.KsGenEqualsLoadThenSixteenSteps := by
  intro s
  have hr : Instr.statusRead ∉ List.replicate 16 Instr.ksStep := by decide
  rw [execAll_cons]
  change execKsGen s = andThen (execKsLoad s) _
  rw [execKsGen, execKsLoad, withDin_whole, withDin_whole, andThen_unlessHalted hr, andThen_failIf hr]
  refine unlessHalted_congr fun he => failIf_congr fun ha => ?_
  have hsteps := execAll_replicate_append (rest := []) (exec_ksStep_afterKsSteps he ha s.port.din)
  rw [afterKsSteps_zero, afterKsSteps_sixteen, List.append_nil] at hsteps
  exact hsteps.symm

end Sys2Proof.Machine
end

section
/-! A block by steps: FN_ROUND sixteen times, then FN_FINISH (spec 44_feistel_network R202 to R208; 30_encoding R86). -/

namespace Sys2Proof.Machine

variable {s : State}

/-- `s` with a block in flight after `n` rounds from the halves `lr`, with `keys` in the order they are used. -/
def State.afterRounds (s : State) (dir : Dir) (keys : List RoundKey) (lr : HalfBlock × HalfBlock) (n : Fin 17) : State :=
  (s.setLr (feistelRounds s.tables (keys.take n.val) lr).1 (feistelRounds s.tables (keys.take n.val) lr).2).setBlk true dir
    n

/-- The store holds `keys` in the order a block of direction `dir` uses them (R204). -/
def State.UsesKeys (s : State) (dir : Dir) (keys : List RoundKey) : Prop :=
  keys.length = 16 ∧ ∀ n : Fin 16, s.rk[(roundKeyIndex dir n).val] = keys[n.val]?

/-- R204: an FN_ROUND that passes its checks. -/
theorem exec_fnRound_passes {n : Fin 16} {l r : HalfBlock} {k : RoundKey} (he : s.status.err = false)
    (ha : s.status.blkActive = true) (hn : s.status.blkCnt = n.castSucc) (hl : s.l = some l) (hr : s.r = some r)
    (hk : s.rk[(roundKeyIndex s.status.blkDir n).val] = some k) :
    exec .fnRound s = .next ((s.setLr (feistelRound s.tables (l, r) k).1 (feistelRound s.tables (l, r) k).2).setBlk true
      s.status.blkDir n.succ) := by
  have hi : nextIndex? n.castSucc = some n := nextIndex?_some.2 rfl
  simp [exec, execFnRound, he, ha, hn, hi, hl, hr, hk]

theorem exec_fnRound_afterRounds {dir : Dir} {keys : List RoundKey} (he : s.status.err = false)
    (hk : s.UsesKeys dir keys) (lr : HalfBlock × HalfBlock) (n : Fin 16) :
    exec .fnRound (s.afterRounds dir keys lr n.castSucc) = .next (s.afterRounds dir keys lr n.succ) := by
  obtain ⟨hlen, hkeys⟩ := hk
  have hlt : n.val < keys.length := hlen.symm ▸ n.isLt
  have hread : s.rk[(roundKeyIndex dir n).val] = some keys[n.val] := (hkeys n).trans (List.getElem?_eq_getElem hlt)
  have hround : feistelRounds s.tables (keys.take (n.val + 1)) lr =
      feistelRound s.tables (feistelRounds s.tables (keys.take n.val) lr) keys[n.val] := by
    rw [List.take_succ_eq_append_getElem hlt, feistelRounds_append]
  rw [exec_fnRound_passes (s := s.afterRounds dir keys lr n.castSucc) he rfl rfl rfl rfl hread]
  simp only [State.afterRounds, Fin.val_succ, hround]
  rfl

@[simp] theorem setBlk_setBlk (s : State) (a a' : Bool) (dir dir' : Dir) (n n' : Fin 17) :
    (s.setBlk a dir n).setBlk a' dir' n' = s.setBlk a' dir' n' := rfl

/-- R29 item 5: with no block in flight the block fields are 0 already. -/
theorem setBlk_of_idle (ha : s.status.blkActive = false) (hidle : s.IdleBlockFields) :
    s.setBlk false .encrypt 0 = s := by
  obtain ⟨hcnt, hdir⟩ := hidle ha
  rw [State.setBlk, ← ha, ← hcnt, ← hdir]

theorem exec_fnFinish_afterRounds {dir : Dir} {keys : List RoundKey} (he : s.status.err = false)
    (ha : s.status.blkActive = false) (hidle : s.IdleBlockFields) (hlen : keys.length = 16)
    (lr : HalfBlock × HalfBlock) :
    exec .fnFinish (s.afterRounds dir keys lr 16) = complete (finishedBlock s.tables dir (feistelRounds s.tables keys lr))
      (s.setLr (feistelRounds s.tables keys lr).1 (feistelRounds s.tables keys lr).2) := by
  have hall : keys.take (16 : Fin 17).val = keys := List.take_of_length_le (Nat.le_of_eq hlen)
  have hclosed (l r : HalfBlock) : (s.setLr l r).setBlk false .encrypt 0 = s.setLr l r := setBlk_of_idle ha hidle
  rw [State.afterRounds, hall]
  simp [exec, execFnFinish, he, hclosed]

/-- R202 to R205: 16 rounds and the finish, from a block just opened. -/
theorem execAll_rounds_finish {dir : Dir} {keys : List RoundKey} (he : s.status.err = false)
    (ha : s.status.blkActive = false) (hidle : s.IdleBlockFields) (hk : s.UsesKeys dir keys)
    (lr : HalfBlock × HalfBlock) :
    execAll (List.replicate 16 .fnRound ++ [.fnFinish]) ((s.setLr lr.1 lr.2).setBlk true dir 0) =
      complete (finishedBlock s.tables dir (feistelRounds s.tables keys lr))
        (s.setLr (feistelRounds s.tables keys lr).1 (feistelRounds s.tables keys lr).2) :=
  calc execAll (List.replicate 16 .fnRound ++ [.fnFinish]) (s.afterRounds dir keys lr 0)
      = execAll [.fnFinish] (s.afterRounds dir keys lr 16) :=
        execAll_replicate_append (exec_fnRound_afterRounds he hk lr)
    _ = _ := execAll_cons_next (exec_fnFinish_afterRounds he ha hidle hk.1 lr)

/-! ### The keys of the store in each direction -/

theorem usesKeys_encrypt {ks : List RoundKey} (h : roundKeys? s = some ks) : s.UsesKeys .encrypt ks := by
  obtain ⟨hlen, hget⟩ := roundKeys?_spec h
  refine ⟨hlen, fun n => ?_⟩
  have hlt : n.val < ks.length := hlen.symm ▸ n.isLt
  rw [List.getElem?_eq_getElem hlt]
  exact hget n.val n.isLt hlt

theorem usesKeys_decrypt {ks : List RoundKey} (h : roundKeys? s = some ks) : s.UsesKeys .decrypt ks.reverse := by
  obtain ⟨hlen, hget⟩ := roundKeys?_spec h
  refine ⟨by simpa using hlen, fun n => ?_⟩
  have hlt : n.rev.val < ks.length := hlen.symm ▸ n.rev.isLt
  have hidx : 16 - 1 - n.val = n.rev.val := by rw [Fin.val_rev]; omega
  rw [List.getElem?_reverse (by omega), hlen, hidx, List.getElem?_eq_getElem hlt]
  exact hget n.rev.val n.rev.isLt hlt

/-! ### The whole-block commands -/

/-- R207, R208: a block of direction `dir`, from the halves `lr`, with the keys of the store in the order `order`. -/
theorem wholeBlock_eq_stepwise {dir : Dir} {order : List RoundKey → List RoundKey} (hinv : s.Inv)
    (horder : ∀ ks, roundKeys? s = some ks → s.UsesKeys dir (order ks)) (lr : HalfBlock × HalfBlock) :
    unlessHalted s (openBlock s (withValue (roundKeys? s) fun ks =>
      complete (finishedBlock s.tables dir (feistelRounds s.tables (order ks) lr))
        (s.setLr (feistelRounds s.tables (order ks) lr).1 (feistelRounds s.tables (order ks) lr).2))) =
    andThen (unlessHalted s (openBlock s (.next ((s.setLr lr.1 lr.2).setBlk true dir 0))))
      (List.replicate 16 .fnRound ++ [.fnFinish]) := by
  obtain ⟨-, hu, hrk, -, hidle, -, -⟩ := hinv
  have hr : Instr.statusRead ∉ List.replicate 16 Instr.fnRound ++ [.fnFinish] := by decide
  rw [andThen_unlessHalted hr, andThen_openBlock hr]
  refine unlessHalted_congr fun he => openBlock_congr fun ha hc => ?_
  obtain ⟨ks, hks⟩ := Option.ne_none_iff_exists'.1 (roundKeys?_ne_none hu hrk hc)
  rw [hks, withValue_some]
  exact (execAll_rounds_finish he ha hidle (horder ks hks) lr).symm

/-- Settles O41: FN_START_ENC opens the block under ENC_BLOCK's checks, and the rounds use the store in ascending order. -/
theorem encBlockEqualsStepwiseEncryption : Obligations.EncBlockEqualsStepwiseEncryption := by
  intro s hinv
  rw [execAll_cons]
  change execEncBlock s = andThen (execFnStartEnc s) _
  rw [execEncBlock, execFnStartEnc, withDin_whole, withDin_whole]
  exact wholeBlock_eq_stepwise (order := id) hinv (fun _ h => usesKeys_encrypt h) _

/-- Settles O42: FN_START_DEC opens the block under DEC_BLOCK's checks, and the rounds use the store in descending order. -/
theorem decBlockEqualsStepwiseDecryption : Obligations.DecBlockEqualsStepwiseDecryption := by
  intro s hinv
  rw [execAll_cons]
  change execDecBlock s = andThen (execFnStartDec s) _
  rw [execDecBlock, execFnStartDec, withDin_whole, withDin_whole]
  exact wholeBlock_eq_stepwise (order := List.reverse) hinv (fun _ h => usesKeys_decrypt h) _

end Sys2Proof.Machine
end

section
/-! Ports a command does not read (spec 30_encoding R75, R77). -/

namespace Sys2Proof.Machine

variable {s : State}

/-- `s` with other values on the ports. -/
def State.mapPort (s : State) (g : Transaction → Transaction) : State := { s with port := g s.port }

@[simp] theorem State.mapPort_rk (g : Transaction → Transaction) : (s.mapPort g).rk = s.rk := rfl
@[simp] theorem State.mapPort_l (g : Transaction → Transaction) : (s.mapPort g).l = s.l := rfl
@[simp] theorem State.mapPort_status (g : Transaction → Transaction) : (s.mapPort g).status = s.status := rfl

/-- A result with other values on the ports. -/
abbrev onPort (g : Transaction → Transaction) : Result → Result := onNext (State.mapPort · g)

/-! ### The shared operations -/

theorem unlessHalted_mapPort {g : Transaction → Transaction} {go go' : Result} (h : go' = onPort g go) :
    unlessHalted (s.mapPort g) go' = onPort g (unlessHalted s go) := by
  subst h
  cases he : s.status.err with
  | true =>
    rw [unlessHalted_halted he, unlessHalted_halted (s := s.mapPort g) he]
    rfl
  | false => rw [unlessHalted_running he, unlessHalted_running (s := s.mapPort g) he]

theorem failIf_mapPort {g : Transaction → Transaction} {bad : Bool} {k : Cause} {go go' : Result}
    (h : go' = onPort g go) : failIf bad k (s.mapPort g) go' = onPort g (failIf bad k s go) := by
  subst h
  cases bad <;> rfl

theorem withValue_mapPort {g : Transaction → Transaction} {α : Type} {r : Option α} {go go' : α → Result}
    (h : ∀ v, go' v = onPort g (go v)) : withValue r go' = onPort g (withValue r go) := by
  cases r with
  | none => rfl
  | some v => exact h v

theorem openBlock_mapPort {g : Transaction → Transaction} {go go' : Result} (h : go' = onPort g go) :
    openBlock (s.mapPort g) go' = onPort g (openBlock s go) :=
  failIf_mapPort (failIf_mapPort h)

theorem withDin_mapPort {g : Transaction → Transaction} (hg : ∀ t, (g t).din = t.din) {n : Nat}
    {go go' : BitVec n → Result} (h : ∀ v, go' v = onPort g (go v)) :
    withDin n (s.mapPort g) go' = onPort g (withDin n s go) := by
  have hd : (s.mapPort g).port.din = s.port.din := hg _
  rw [withDin, hd]
  exact failIf_mapPort (h _)

/-! ### The commands -/

/-- R77: a command that leaves DIN unused reads no port at all. -/
theorem exec_mapPort_of_leavesDinUnused {i : Instr} (hi : leavesDinUnused i = true) (g : Transaction → Transaction) :
    exec i (s.mapPort g) = onPort g (exec i s) := by
  cases i with
  | nop | statusRead => rfl
  | ksStep =>
    refine unlessHalted_mapPort (failIf_mapPort (failIf_mapPort ?_))
    simp only [State.mapPort_status]
    cases nextIndex? s.status.ksCnt with
    | none => rfl
    | some n => exact withValue_mapPort fun _ => withValue_mapPort fun _ => rfl
  | rkRead ii =>
    refine unlessHalted_mapPort ?_
    rw [State.mapPort_rk]
    cases s.rk[ii.val] <;> rfl
  | cdRead => exact unlessHalted_mapPort (failIf_mapPort (withValue_mapPort fun _ => withValue_mapPort fun _ => rfl))
  | fnRound =>
    refine unlessHalted_mapPort (failIf_mapPort ?_)
    simp only [State.mapPort_status]
    cases nextIndex? s.status.blkCnt with
    | none => rfl
    | some n =>
      exact withValue_mapPort fun _ => withValue_mapPort fun _ => withValue_mapPort fun _ => rfl
  | fnFinish =>
    exact unlessHalted_mapPort (failIf_mapPort (failIf_mapPort
      (withValue_mapPort fun _ => withValue_mapPort fun _ => rfl)))
  | lrRead =>
    refine unlessHalted_mapPort ?_
    rw [State.mapPort_l]
    cases s.l with
    | none => rfl
    | some l => exact withValue_mapPort fun _ => rfl
  | _ => cases hi

/-- R77: a command that does not read KIN reads DIN at most. -/
theorem exec_mapPort_of_ne_roundF {i : Instr} (hi : i ≠ .roundF) {g : Transaction → Transaction}
    (hg : ∀ t, (g t).din = t.din) : exec i (s.mapPort g) = onPort g (exec i s) := by
  cases hu : leavesDinUnused i with
  | true => exact exec_mapPort_of_leavesDinUnused hu g
  | false =>
    cases i with
    | roundF => exact absurd rfl hi
    | permPc1 | permPc2 | permE | permP | permIp | permIip | sbox | slayer =>
      exact unlessHalted_mapPort (withDin_mapPort hg fun _ => rfl)
    | ksLoad | ksGen => exact unlessHalted_mapPort (withDin_mapPort hg fun _ => failIf_mapPort rfl)
    | fnStartEnc | fnStartDec => exact unlessHalted_mapPort (withDin_mapPort hg fun _ => openBlock_mapPort rfl)
    | encBlock | decBlock =>
      exact unlessHalted_mapPort (withDin_mapPort hg fun _ => openBlock_mapPort (withValue_mapPort fun _ => rfl))
    | _ => cases hu

/-- Settles O57: another KIN keeps DIN, and another DIN is on a port these commands do not read. -/
theorem unusedPortsHaveNoEffect : Obligations.UnusedPortsHaveNoEffect := fun _ _ din kin =>
  ⟨fun hi => exec_mapPort_of_ne_roundF hi (g := fun t => { t with kin := kin }) fun _ => rfl,
   fun hi => exec_mapPort_of_leavesDinUnused hi fun t => { t with din := din }⟩

end Sys2Proof.Machine
end

section
/-! Tables of positions, and the commands that apply one to DIN (spec 40_permutation_table_rom R101 to R103, R110 to
R115). -/

namespace Sys2Proof.Machine

/-- `t` has `len` entries, each a position of an `n`-bit vector (R101). -/
def IsTable (len n : Nat) (t : List Nat) : Prop :=
  t.length = len ∧ ∀ j, j < len → 1 ≤ t.getD j 0 ∧ t.getD j 0 ≤ n

theorem isTable_of_distinctPositions {len n : Nat} {t : List Nat} (h : distinctPositions len n t = true) :
    IsTable len n t :=
  ⟨distinctPositions_length h, fun _ hj => distinctPositions_entry h hj⟩

theorem isTable_of_forall_mem {len n : Nat} {t : List Nat} (hl : t.length = len) (h : ∀ p ∈ t, 1 ≤ p ∧ p ≤ n) :
    IsTable len n t := by
  refine ⟨hl, fun j hj => ?_⟩
  have hlt : j < t.length := hl.symm ▸ hj
  rw [List.getD_eq_getElem _ _ hlt]
  exact h _ (List.getElem_mem hlt)

theorem isTable_ip (T : AdmittedTables) : IsTable 64 64 T.ip := isTable_of_distinctPositions (ip_shape T)

theorem isTable_iip (T : AdmittedTables) : IsTable 64 64 T.iip := ⟨iip_length T, iip_entry T⟩

theorem isTable_e (T : AdmittedTables) : IsTable 48 32 T.e := ⟨e_length T, e_entry T⟩

/-- R103: entry `6g + j` (0-based) of E is the formula's, for the window `g` of its row and the place `j` in it. -/
theorem e_getD (T : AdmittedTables) {g j : Nat} (hg : g < 8) (hj : j < 6) :
    T.e.getD (6 * g + j) 0 = (4 * g + j + 31) % 32 + 1 := by
  have hprinted : ∀ g < 8, ∀ j < 6, expansionTable.getD (6 * g + j) 0 = (4 * g + j + 31) % 32 + 1 := by decide
  obtain ⟨-, -, -, -, he, -, -⟩ := admitted_parts T.ok
  rw [he]
  exact hprinted g hg j hj

/-! ### The permutation commands -/

variable {s : State} {n len : Nat} {table : List Nat}

/-- The template of 40 section 3 on a running engine, where the operand fits its field. -/
theorem permCommand_permutes (ht : IsTable len n table) (h64 : len ≤ 64) (he : s.status.err = false)
    (hfit : s.port.din.toNat < 2 ^ n) :
    ∃ v, permCommand n len table s = .next { s with dout := some v } ∧ PermutesTo len n table s.port.din v := by
  obtain ⟨hl, hentry⟩ := ht
  refine ⟨(permute len table (s.port.din.setWidth n)).setWidth 64, ?_,
    permutesTo_permute _ (getLsbD_din_field _ _) hl hentry h64⟩
  rw [permCommand, unlessHalted_running he, withDin_fits hfit]
  rfl

/-- R76 in the template. -/
theorem permCommand_tooLong (he : s.status.err = false) (hlong : 2 ^ n ≤ s.port.din.toNat) :
    permCommand n len table s = .next (s.faulted .invalidLength) := by
  rw [permCommand, unlessHalted_running he, withDin_tooLong hlong]
  rfl

/-- Settles O20: a 64-bit operand always fits, and PC1, IP and IIP are tables of positions of a block. -/
theorem widePermutationsPermuteDin : Obligations.WidePermutationsPermuteDin := by
  refine ⟨rfl, rfl, rfl, fun s he => ⟨?_, ?_, ?_⟩⟩
  · exact permCommand_permutes (isTable_of_distinctPositions (pc1_shape s.tables)) (by decide) he s.port.din.isLt
  · exact permCommand_permutes (isTable_ip s.tables) (by decide) he s.port.din.isLt
  · exact permCommand_permutes (isTable_iip s.tables) (by decide) he s.port.din.isLt

/-- Settles O21: by the template, on both sides of the field's bound. -/
theorem permPc2AndPermPPermuteTheirField : Obligations.PermPc2AndPermPPermuteTheirField := by
  refine ⟨rfl, rfl, fun s he => ⟨?_, permCommand_tooLong he, ?_, permCommand_tooLong he⟩⟩
  · exact permCommand_permutes (isTable_of_distinctPositions (pc2_shape s.tables)) (by decide) he
  · exact permCommand_permutes (isTable_of_distinctPositions (p32_shape s.tables)) (by decide) he

/-- Settles O22: PERM_E applies table E, whose entry for place `j` of group `g` is the formula's. -/
theorem permEFollowsTheWindowFormula : Obligations.PermEFollowsTheWindowFormula := by
  refine ⟨rfl, fun s he => ⟨fun hfit => ?_, permCommand_tooLong he⟩⟩
  obtain ⟨v, hv, hbits, hzero⟩ := permCommand_permutes (isTable_e s.tables) (by decide) he hfit
  refine ⟨v, hv, hzero, fun g j h1 h8 hj => ?_⟩
  rw [hbits (6 * (g - 1) + j + 1) (by omega) (by omega), Nat.add_sub_cancel,
    e_getD s.tables (by omega : g - 1 < 8) (by omega)]

end Sys2Proof.Machine
end

section
/-! IIP undoes IP (spec 40_permutation_table_rom R104). -/

namespace Sys2Proof.Machine

/-! ### One table after another -/

/-- A position is determined by the bit it holds in every vector. -/
theorem eq_of_forall_pos_eq {n a b : Nat} (ha : 1 ≤ a ∧ a ≤ n) (hb : 1 ≤ b ∧ b ≤ n)
    (h : ∀ x : BitVec n, pos x a = pos x b) : a = b := by
  have hx := h (BitVec.twoPow n (n - b))
  rw [pos_eq_getLsbD _ ha.1 ha.2, pos_eq_getLsbD _ hb.1 hb.2, BitVec.getLsbD_twoPow, BitVec.getLsbD_twoPow] at hx
  have hlt : n - b < n := by omega
  have hidx : n - b = n - a := by simpa [hlt] using hx
  omega

/-- `t` undoes `u` on every vector exactly where it undoes it on every position. -/
theorem forall_permute_permute_eq_iff {n : Nat} {t u : List Nat} (ht : IsTable n n t) (hu : IsTable n n u) :
    (∀ x : BitVec n, permute n t (permute n u x : BitVec n) = x) ↔
      ∀ p, 1 ≤ p → p ≤ n → u.getD (t.getD (p - 1) 0 - 1) 0 = p := by
  obtain ⟨htl, hte⟩ := ht
  obtain ⟨hul, hue⟩ := hu
  have hpos (x : BitVec n) (p : Nat) (h1 : 1 ≤ p) (hn : p ≤ n) :
      pos (permute n t (permute n u x : BitVec n)) p = pos x (u.getD (t.getD (p - 1) 0 - 1) 0) := by
    obtain ⟨he1, hen⟩ := hte (p - 1) (by omega)
    rw [pos_permute _ htl h1 hn, pos_permute x hul he1 hen]
  constructor
  · intro h p h1 hn
    obtain ⟨he1, hen⟩ := hte (p - 1) (by omega)
    refine eq_of_forall_pos_eq (hue _ (by omega)) ⟨h1, hn⟩ fun x => ?_
    rw [← hpos x p h1 hn, h x]
  · intro h x
    refine eq_of_pos fun p h1 hn => ?_
    rw [hpos x p h1 hn, h p h1 hn]

/-! ### IP and IIP -/

variable (T : AdmittedTables)

theorem iip_getD_ip {q : Nat} (h1 : 1 ≤ q) (h64 : q ≤ 64) : T.iip.getD (T.ip.getD (q - 1) 0 - 1) 0 = q := by
  obtain ⟨hl, hentry⟩ := isTable_ip T
  obtain ⟨he1, he64⟩ := hentry (q - 1) (by omega)
  have hlt : q - 1 < T.ip.length := by omega
  have hidx : T.ip.idxOf (T.ip.getD (q - 1) 0) = q - 1 := by
    rw [List.getD_eq_getElem _ _ hlt]
    exact (distinctPositions_nodup (ip_shape T)).idxOf_getElem _ hlt
  rw [iip_getD T (by omega), Nat.sub_add_cancel he1, hidx, Nat.sub_add_cancel h1]

theorem ip_getD_iip {p : Nat} (h1 : 1 ≤ p) (h64 : p ≤ 64) : T.ip.getD (T.iip.getD (p - 1) 0 - 1) 0 = p := by
  have hlt : T.ip.idxOf p < T.ip.length := List.idxOf_lt_length_of_mem (ip_mem T h1 h64)
  rw [iip_getD T (by omega), Nat.sub_add_cancel h1, Nat.add_sub_cancel, List.getD_eq_getElem _ _ hlt]
  exact List.getElem_idxOf hlt

/-- A table that IP takes back to every position is IIP, since IIP undoes IP on its entries. -/
theorem eq_iip_of_ip_getD {t : List Nat} (ht : IsTable 64 64 t)
    (h : ∀ p, 1 ≤ p → p ≤ 64 → T.ip.getD (t.getD (p - 1) 0 - 1) 0 = p) : t = T.iip := by
  obtain ⟨hl, hentry⟩ := ht
  refine List.ext_getElem (hl.trans (iip_length T).symm) fun j hj hj' => ?_
  obtain ⟨he1, he64⟩ := hentry j (by omega)
  have hip : T.ip.getD (t.getD j 0 - 1) 0 = j + 1 := h (j + 1) (by omega) (by omega)
  have hiip := iip_getD_ip T he1 he64
  rw [hip, Nat.add_sub_cancel] at hiip
  rw [← List.getD_eq_getElem t 0 hj, ← List.getD_eq_getElem T.iip 0 hj', hiip]

/-- Settles O23: tables undo each other on blocks exactly where they do on positions, and there IP is a bijection with
IIP its inverse. -/
theorem iipIsTheInverseOfIp : Obligations.IipIsTheInverseOfIp := by
  intro T
  have hip := isTable_ip T
  have hiip := isTable_iip T
  refine ⟨fun _ => iip_getD_ip T, ?_, ?_, fun t hl hmem h => ?_⟩
  · exact (forall_permute_permute_eq_iff hiip hip).2 fun _ => ip_getD_iip T
  · exact (forall_permute_permute_eq_iff hip hiip).2 fun _ => iip_getD_ip T
  · have ht := isTable_of_forall_mem hl hmem
    exact eq_iip_of_ip_getD T ht ((forall_permute_permute_eq_iff ht hip).1 h)

end Sys2Proof.Machine
end

section
/-! The S-box and the S-layer commands (spec 41_sbox_rom_8x R132 to R136). -/

namespace Sys2Proof.Machine

/-! ### Commands that return a value of their DIN field -/

variable {s : State} {n m : Nat} {f : BitVec n → BitVec m}

/-- R75 on a running engine, where the operand fits its field. -/
theorem unlessHalted_withDin_complete (he : s.status.err = false) (hfit : s.port.din.toNat < 2 ^ n) :
    unlessHalted s (withDin n s fun v => complete (f v) s) =
      .next { s with dout := some ((f (s.port.din.setWidth n)).setWidth 64) } := by
  rw [unlessHalted_running he, withDin_fits hfit]
  rfl

/-- R76 on a running engine. -/
theorem unlessHalted_withDin_tooLong {go : BitVec n → Result} (he : s.status.err = false)
    (hlong : 2 ^ n ≤ s.port.din.toNat) : unlessHalted s (withDin n s go) = .next (s.faulted .invalidLength) := by
  rw [unlessHalted_running he, withDin_tooLong hlong]
  rfl

/-! ### The S-layer -/

/-- R134: nibble `kk` of the S-layer, counted from the left, is box `kk + 1` on group `kk`. The layer is a sum of the
eight outputs, each below 16, in powers of 16. -/
theorem sLayer_nibble (T : AdmittedTables) (x : RoundKey) {kk : Nat} (hkk : kk < 8) :
    (sLayer T x).toNat / 2 ^ (28 - 4 * kk) % 16 = (sboxLookup T kk (sboxGroup x kk)).toNat := by
  simp only [sLayer, toNat_concat]
  interval_cases kk <;> omega

/-- A group reads the low 48 bits of the port only. -/
theorem sboxGroup_setWidth (din : Block) {kk : Nat} (hkk : kk < 8) :
    sboxGroup (din.setWidth 48) kk = din.extractLsb' (42 - 6 * kk) 6 := by
  apply BitVec.eq_of_getLsbD_eq
  intro b hb
  rw [sboxGroup, BitVec.getLsbD_extractLsb', BitVec.getLsbD_extractLsb', getLsbD_din_field din 48 _ (by omega)]

/-- R134 at the ports: what `sLayer` computes on the low field of `din`. -/
theorem substitutesTo_sLayer (T : AdmittedTables) (din : Block) :
    SubstitutesTo T din ((sLayer T (din.setWidth 48)).setWidth 64) := by
  have hv : ((sLayer T (din.setWidth 48)).setWidth 64).toNat = (sLayer T (din.setWidth 48)).toNat :=
    BitVec.toNat_setWidth_of_le (by decide)
  refine ⟨fun kk hkk => ?_, hv ▸ (sLayer T _).isLt⟩
  rw [hv, sLayer_nibble T _ hkk, sboxLookup_toNat, sboxGroup_setWidth din hkk]

/-! ### The statements -/

/-- Settles O24: the 4-bit entry of the box, zero-extended, is what the lookup of R132 reads. -/
theorem sboxReturnsTheSelectedEntry : Obligations.SboxReturnsTheSelectedEntry := by
  refine fun kk => ⟨by revert kk; decide, fun s he => ⟨fun hfit => ?_, unlessHalted_withDin_tooLong he⟩⟩
  refine ⟨_, unlessHalted_withDin_complete he hfit, ?_⟩
  rw [BitVec.toNat_setWidth_of_le (by decide), sboxLookup_toNat]

/-- Settles O26: by the S-layer's nibbles, each the entry its box selects. -/
theorem slayerSubstitutesEachGroup : Obligations.SlayerSubstitutesEachGroup := by
  refine ⟨rfl, fun s he => ⟨fun hfit => ?_, unlessHalted_withDin_tooLong he⟩⟩
  exact ⟨_, unlessHalted_withDin_complete he hfit, substitutesTo_sLayer s.tables s.port.din⟩

end Sys2Proof.Machine
end

section
/-! One schedule in the machine (spec 42_key_schedule_gen R150; 70_reset R292): every command that writes C, D or a
round key leaves the halves and the keys of one key. -/

namespace Sys2Proof.Machine

variable {s u : State} {i : Instr}

theorem firstKeys_getElem_of_lt (ks : Vector RoundKey 16) {n : Nat} {j : Fin 16} (h : j.val < n) :
    (firstKeys ks n)[j.val] = some ks[j.val] := by
  simp [firstKeys, h]

/-- The states of a schedule's walk are on the schedule of its key. -/
theorem afterKsSteps_oneSchedule (s : State) (key : RawKey) (n : Fin 17) : (s.afterKsSteps key n).OneSchedule :=
  fun _ => ⟨key, rfl, rfl, fun _ hj => firstKeys_getElem_of_lt _ hj⟩

/-- R150, R152: a round key is made from the halves its own step has rotated. -/
theorem keySchedule_getElem (T : AdmittedTables) (key : RawKey) (n : Fin 16) :
    (keySchedule T key)[n.val] = extractKey T (rotateHalves (halvesAfter T key n.val) (shiftAt T n.val)) := by
  simp [keySchedule, halvesAfter]

/-- R155: a step from the halves of a key takes the next halves and the next round key of the same key. -/
theorem State.OneSchedule.ksStep {n : Fin 16} {c d : CdHalf} (h : s.OneSchedule) (hl : s.status.ksLoaded = true)
    (hn : s.status.ksCnt.val = n.val) (hc : s.c = some c) (hd : s.d = some d) :
    (((s.setCd (rotateHalves (c, d) (shiftAt s.tables n.val)).1
      (rotateHalves (c, d) (shiftAt s.tables n.val)).2).setRk n
        (extractKey s.tables (rotateHalves (c, d) (shiftAt s.tables n.val)))).setKs n.succ).OneSchedule := by
  obtain ⟨key, hkc, hkd, hrk⟩ := h hl
  rw [hn] at hkc hkd hrk
  obtain rfl : c = (halvesAfter s.tables key n.val).1 := Option.some.inj (hc.symm.trans hkc)
  obtain rfl : d = (halvesAfter s.tables key n.val).2 := Option.some.inj (hd.symm.trans hkd)
  refine fun _ => ⟨key, rfl, rfl, fun j (hj : j.val < n.val + 1) => ?_⟩
  change (s.rk.set n.val _)[j.val] = some (keySchedule s.tables key)[j.val]
  by_cases hjn : n = j
  · subst hjn
    rw [Vector.getElem_set_self, keySchedule_getElem]
  · have hne : n.val ≠ j.val := fun he => hjn (Fin.ext he)
    rw [Vector.getElem_set_ne _ _ hne]
    exact hrk j (by omega)

/-- R292, command by command: KS_LOAD and KS_GEN begin and end the walk of a new key, KS_STEP goes on with the old one,
and no other command writes C, D, a round key or their count. -/
theorem Effect.keeps_oneSchedule (h : Effect s i u) (hs : s.OneSchedule) : u.OneSchedule := by
  cases h with
  | ksLoad => exact afterKsSteps_zero s s.port.din ▸ afterKsSteps_oneSchedule s s.port.din 0
  | ksGen => exact afterKsSteps_sixteen s s.port.din ▸ afterKsSteps_oneSchedule s s.port.din 16
  | ksStep n c d _ _ hl hn hc hd => exact hs.ksStep hl hn hc hd
  | _ => exact hs

theorem resetRegisters_oneSchedule (s : State) : s.resetRegisters.OneSchedule := fun hl => nomatch hl

/-- The schedule does not speak of the ports and the host's list. -/
theorem State.OneSchedule.present (h : s.OneSchedule) (t : Transaction) (rest : List HostEvent) :
    (s.present t rest).OneSchedule := h

/-- Settles O50: by what a step can do, and by each command's effect on the schedule. -/
theorem everyStepKeepsOneSchedule : Obligations.EveryStepKeepsOneSchedule := by
  intro s u hs h
  rcases step_cases h with ⟨-, rfl⟩ | ⟨p, rest, -, rfl⟩ | ⟨t, rest, i, -, -, -, hx⟩ | ⟨t, rest, e, -, -, -, rfl⟩
  · exact hs
  · exact resetRegisters_oneSchedule _
  · exact (exec_effect i hx).keeps_oneSchedule (hs.present t rest)
  · exact hs

end Sys2Proof.Machine
end

section
/-! The key-schedule commands (spec 42_key_schedule_gen R150 to R158). -/

namespace Sys2Proof.Machine

variable {s : State} {c d : CdHalf}

/-! ### The schedule's functions, bit by bit -/

/-- R152: C0 ‖ D0 is PC1 of the key. -/
theorem initialHalves_append (T : AdmittedTables) (key : RawKey) :
    ((initialHalves T key).1 ++ (initialHalves T key).2 : CdPair) = permute 56 T.pc1 key :=
  upper28_append_lower28 _

theorem permutesTo_initialHalves (T : AdmittedTables) (key : RawKey) :
    PermutesTo 56 64 T.pc1 key (((initialHalves T key).1 ++ (initialHalves T key).2 : CdPair).setWidth 64) := by
  obtain ⟨hl, hentry⟩ := isTable_of_distinctPositions (pc1_shape T)
  rw [initialHalves_append]
  exact permutesTo_permute key (fun _ _ => rfl) hl hentry (by decide)

theorem permutesTo_extractKey (T : AdmittedTables) (cd : CdHalf × CdHalf) :
    PermutesTo 48 56 T.pc2 ((cd.1 ++ cd.2 : CdPair).setWidth 64) ((extractKey T cd).setWidth 64) := by
  obtain ⟨hl, hentry⟩ := isTable_of_distinctPositions (pc2_shape T)
  exact permutesTo_permute _ (getLsbD_zext _ (by decide)) hl hentry (by decide)

/-- R150 step 2: both halves turn by the printed amount of the step. -/
theorem rotatesTo_rotateHalves (T : AdmittedTables) (cd : CdHalf × CdHalf) (n : Nat) :
    RotatesTo (printedShifts.getD n 0) cd.1 (rotateHalves cd (shiftAt T n)).1 ∧
      RotatesTo (printedShifts.getD n 0) cd.2 (rotateHalves cd (shiftAt T n)).2 := by
  rw [← shiftAt_eq T n]
  exact ⟨rotatesTo_rotl _ (shiftAt_le T n), rotatesTo_rotl _ (shiftAt_le T n)⟩

/-! ### The commands where their checks pass -/

theorem exec_ksLoad_passes (he : s.status.err = false) (ha : s.status.blkActive = false) :
    exec .ksLoad s = .next (((s.setCd (initialHalves s.tables s.port.din).1
      (initialHalves s.tables s.port.din).2).setRkStore (Vector.replicate 16 none)).setKs 0) :=
  (unlessHalted_withDin_whole he).trans (failIf_pass ha)

theorem exec_ksGen_passes (he : s.status.err = false) (ha : s.status.blkActive = false) :
    exec .ksGen s = .next (((s.setCd (initialHalves s.tables s.port.din).1
      (initialHalves s.tables s.port.din).2).setRkStore
        (sixteen fun i => some (keySchedule s.tables s.port.din)[i.val])).setKs 16) :=
  (unlessHalted_withDin_whole he).trans (failIf_pass ha)

/-- On a loaded schedule the key-schedule fields of STATUS move by their count alone. -/
theorem setKs_of_loaded (hl : s.status.ksLoaded = true) (n : Fin 17) :
    s.setKs n = { s with status := { s.status with ksCnt := n } } := by
  rw [State.setKs, ← hl]

theorem exec_cdRead_passes (he : s.status.err = false) (hl : s.status.ksLoaded = true) (hc : s.c = some c)
    (hd : s.d = some d) : exec .cdRead s = .next (s.setDout ((c ++ d : CdPair).setWidth 64)) := by
  simp [exec, execCdRead, he, hl, hc, hd]

theorem exec_rkRead_passes {ii : Fin 16} {k : RoundKey} (he : s.status.err = false) (hk : s.rk[ii.val] = some k) :
    exec (.rkRead ii) s = .next (s.setDout (k.setWidth 64)) := by
  simp [exec, execRkRead, he, hk]

/-- R29 items 2 and 3: the entries that hold no key are those past the count. -/
theorem rk_eq_none_iff (hu : s.NoStepsUnloaded) (hrk : s.RkIffStepped) (ii : Fin 16) :
    s.rk[ii.val] = none ↔ s.status.ksCnt.val < ii.val + 1 := by
  rw [← not_iff_not, ← ne_eq, hrk ii, Nat.not_lt]
  refine and_iff_right_of_imp fun hle => ?_
  by_contra hl
  rw [hu (by simpa using hl)] at hle
  cases hle

/-! ### The statements -/

/-- Settles O27: the halves of PC1 of the key, and the one check of the command. -/
theorem ksLoadStartsASchedule : Obligations.KsLoadStartsASchedule := by
  refine ⟨rfl, fun s he => ⟨fun ha => ?_, fun ha => ?_⟩⟩
  · exact ⟨_, _, permutesTo_initialHalves s.tables s.port.din, exec_ksLoad_passes he ha⟩
  · exact firstFailingCheckIsTheFaultTaken .ksLoad s _ he (by simp [checksOf, firstFailing, ha])

/-- Settles O28: rotation and extraction bit by bit, and the three checks in their order. -/
theorem ksStepTakesTheNextStep : Obligations.KsStepTakesTheNextStep := by
  refine ⟨rfl, fun s he => ⟨fun n c d ha hl hn hc hd => ?_, fun ha => ?_, fun ha hl => ?_, fun ha hl hn => ?_⟩⟩
  · obtain ⟨hrc, hrd⟩ := rotatesTo_rotateHalves s.tables (c, d) n.val
    refine ⟨_, _, _, hrc, hrd, permutesTo_extractKey s.tables _, ?_⟩
    rw [exec_ksStep_passes he ha hl (Fin.ext hn) hc hd, setKs_of_loaded (by simp [hl])]
    rfl
  · exact firstFailingCheckIsTheFaultTaken .ksStep s _ he (by simp [checksOf, firstFailing, ha])
  · exact firstFailingCheckIsTheFaultTaken .ksStep s _ he (by simp [checksOf, firstFailing, ha, hl])
  · exact firstFailingCheckIsTheFaultTaken .ksStep s _ he (by simp [checksOf, firstFailing, ha, hl, hn])

/-- Settles O29: the halves after each step of the schedule, which come round to C0 and D0 after 16. -/
theorem ksGenMakesTheWholeSchedule : Obligations.KsGenMakesTheWholeSchedule := by
  refine ⟨rfl, fun s he => ⟨fun ha => ?_, fun ha => ?_⟩⟩
  · have hturn : halvesAfter s.tables s.port.din 16 = halvesAfter s.tables s.port.din 0 := halvesAfter_sixteen _ _
    refine ⟨fun n => (halvesAfter s.tables s.port.din n).1, fun n => (halvesAfter s.tables s.port.din n).2,
      keySchedule s.tables s.port.din, permutesTo_initialHalves _ _, fun n _ => rotatesTo_rotateHalves _ _ n,
      fun n => ?_, congrArg Prod.fst hturn, congrArg Prod.snd hturn, _, exec_ksGen_passes he ha,
      fun n => getElem_sixteen _ _ n.isLt, rfl⟩
    rw [keySchedule_getElem]
    exact permutesTo_extractKey _ _
  · exact firstFailingCheckIsTheFaultTaken .ksGen s _ he (by simp [checksOf, firstFailing, ha])

/-- Settles O31: C ‖ D as a number, zero-extended. -/
theorem cdReadReturnsCAndD : Obligations.CdReadReturnsCAndD := by
  refine ⟨rfl, fun s he => ⟨fun c d hl hc hd => ⟨_, exec_cdRead_passes he hl hc hd, ?_⟩, fun hl => ?_⟩⟩
  · rw [BitVec.toNat_setWidth_of_le (by decide), toNat_concat]
  · exact firstFailingCheckIsTheFaultTaken .cdRead s _ he (by simp [checksOf, firstFailing, hl])

/-- Settles O32: the entry zero-extended, its check, and which entries the invariants leave without a key. -/
theorem rkReadReturnsTheIndexedKey : Obligations.RkReadReturnsTheIndexedKey := by
  refine fun ii => ⟨by revert ii; decide, fun s he => ⟨fun k hk => ?_, fun hk => ?_, fun hinv => ?_⟩⟩
  · exact ⟨_, exec_rkRead_passes he hk, BitVec.toNat_setWidth_of_le (by decide)⟩
  · exact firstFailingCheckIsTheFaultTaken (.rkRead ii) s _ he (by simp [checksOf, firstFailing, hk])
  · obtain ⟨-, hu, hrk, -⟩ := hinv
    exact rk_eq_none_iff hu hrk ii

end Sys2Proof.Machine
end

section
/-! The round function and its command (spec 43_round_function R180, R183). -/

namespace Sys2Proof.Machine

/-- R134 on a zero-extended operand. -/
theorem substitutesTo_sLayer_zext (T : AdmittedTables) (x : RoundKey) :
    SubstitutesTo T (x.setWidth 64) ((sLayer T x).setWidth 64) := by
  have hx : (x.setWidth 64).setWidth 48 = x := by simp
  have h := substitutesTo_sLayer T (x.setWidth 64)
  rwa [hx] at h

/-- R180 at the ports: what `roundFunction` computes on the half-block in the low field of `din`, by way of the expanded
half-block and of the S-layer of its xor with the key. -/
theorem roundFunctionTo_roundFunction (T : AdmittedTables) {din : Block} (r : HalfBlock) (k : RoundKey)
    (hr : ∀ b, b < 32 → r.getLsbD b = din.getLsbD b) :
    RoundFunctionTo T din (k.setWidth 64) ((roundFunction T r k).setWidth 64) := by
  obtain ⟨hel, hee⟩ := isTable_e T
  obtain ⟨hpl, hpe⟩ := isTable_of_distinctPositions (p32_shape T)
  refine ⟨(permute 48 T.e r).setWidth 64, (sLayer T (permute 48 T.e r ^^^ k)).setWidth 64, ?_, ?_, ?_⟩
  · exact permutesTo_permute r hr hel hee (by decide)
  · rw [← BitVec.setWidth_xor]
    exact substitutesTo_sLayer_zext T _
  · exact permutesTo_permute _ (getLsbD_zext _ (by decide)) hpl hpe (by decide)

/-- Settles O33: ROUND_F returns F of its field of DIN and the key on KIN, and reads no sequencer state. -/
theorem roundFComputesF : Obligations.RoundFComputesF := by
  refine ⟨rfl, fun s he => ⟨fun hfit => ?_, unlessHalted_withDin_tooLong he⟩⟩
  exact ⟨_, unlessHalted_withDin_complete he hfit,
    roundFunctionTo_roundFunction s.tables _ s.port.kin (getLsbD_din_field s.port.din 32)⟩

end Sys2Proof.Machine
end

section
/-! Decrypt and Encrypt undo each other (spec 44_feistel_network R200, R201, R209). -/

namespace Sys2Proof.Machine

variable (T : AdmittedTables)

@[simp] theorem permute_iip_permute_ip (x : Block) : permute 64 T.iip (permute 64 T.ip x : Block) = x :=
  (forall_permute_permute_eq_iff (isTable_iip T) (isTable_ip T)).2 (fun _ => ip_getD_iip T) x

@[simp] theorem permute_ip_permute_iip (x : Block) : permute 64 T.ip (permute 64 T.iip x : Block) = x :=
  (forall_permute_permute_eq_iff (isTable_ip T) (isTable_iip T)).2 (fun _ => iip_getD_ip T) x

/-- A round undoes itself across a swap: both times F is taken of the same half-block. -/
theorem feistelRound_swap_feistelRound (lr : HalfBlock × HalfBlock) (k : RoundKey) :
    feistelRound T (feistelRound T lr k).swap k = lr.swap := by
  simp [feistelRound, Prod.swap]

/-- Rounds undo themselves across a swap, the last key first: the outermost round is the first key's. -/
theorem feistelRounds_reverse_swap (ks : List RoundKey) (lr : HalfBlock × HalfBlock) :
    feistelRounds T ks.reverse (feistelRounds T ks lr).swap = lr.swap := by
  induction ks generalizing lr with
  | nil => rfl
  | cons k ks ih =>
    have hrest : feistelRounds T (k :: ks) lr = feistelRounds T ks (feistelRound T lr k) := rfl
    rw [List.reverse_cons, feistelRounds_append, hrest, ih, feistelRound_swap_feistelRound]

theorem decrypt_encrypt (ks : List RoundKey) (x : Block) : decrypt T ks (encrypt T ks x) = x := by
  rw [decrypt, decryptHalves, encrypt, encryptHalves, splitBlock_swapJoin, feistelRounds_reverse_swap,
    swapJoin_splitBlock, permute_iip_permute_ip]

theorem encrypt_decrypt (ks : List RoundKey) (x : Block) : encrypt T ks (decrypt T ks x) = x := by
  have hrounds := feistelRounds_reverse_swap T ks.reverse (splitBlock x)
  rw [List.reverse_reverse] at hrounds
  rw [encrypt, encryptHalves, decrypt, decryptHalves, permute_ip_permute_iip, splitBlock_swapJoin, hrounds,
    swapJoin_splitBlock]

/-- Settles O43: the rounds undo themselves across the closing swap, and IIP undoes IP. -/
theorem decryptInvertsEncrypt : Obligations.DecryptInvertsEncrypt :=
  fun T ks x => ⟨decrypt_encrypt T ks x, encrypt_decrypt T ks x⟩

end Sys2Proof.Machine
end

section
/-! The commands of a block where their checks pass, and the checks that open a block (spec 44_feistel_network R202 to
R208). -/

namespace Sys2Proof.Machine

variable {s : State} {l r : HalfBlock} {ks : Vector RoundKey 16}

/-- A running engine with no block in flight and the 16 round keys `ks`: one that can open a block. -/
structure State.ReadyForBlock (s : State) (ks : Vector RoundKey 16) : Prop where
  running : s.status.err = false
  idle : s.status.blkActive = false
  full : s.status.ksCnt = 16
  keys : ∀ i : Fin 16, s.rk[i.val] = some ks[i.val]

/-- What the host presents does not matter to it. -/
theorem State.ReadyForBlock.present (h : s.ReadyForBlock ks) (t : Transaction) (rest : List HostEvent) :
    (s.present t rest).ReadyForBlock ks :=
  ⟨h.running, h.idle, h.full, h.keys⟩

/-- The registers a whole-block command writes do not matter to it. -/
theorem State.ReadyForBlock.setLr_setDout (h : s.ReadyForBlock ks) (l r : HalfBlock) (v : Block) :
    ((s.setLr l r).setDout v).ReadyForBlock ks :=
  ⟨h.running, h.idle, h.full, h.keys⟩

/-! ### The commands -/

theorem exec_fnStartEnc_passes (he : s.status.err = false) (ha : s.status.blkActive = false)
    (hc : s.status.ksCnt = 16) :
    exec .fnStartEnc s = .next ((s.setLr (splitBlock (permute 64 s.tables.ip s.port.din)).1
      (splitBlock (permute 64 s.tables.ip s.port.din)).2).setBlk true .encrypt 0) :=
  (unlessHalted_withDin_whole he).trans (openBlock_ready ha hc)

theorem exec_fnStartDec_passes (he : s.status.err = false) (ha : s.status.blkActive = false)
    (hc : s.status.ksCnt = 16) :
    exec .fnStartDec s =
      .next ((s.setLr (splitBlock s.port.din).1 (splitBlock s.port.din).2).setBlk true .decrypt 0) :=
  (unlessHalted_withDin_whole he).trans (openBlock_ready ha hc)

theorem exec_fnFinish_passes (he : s.status.err = false) (ha : s.status.blkActive = true)
    (hn : s.status.blkCnt = 16) (hl : s.l = some l) (hr : s.r = some r) :
    exec .fnFinish s =
      .next ((s.setBlk false .encrypt 0).setDout (finishedBlock s.tables s.status.blkDir (l, r))) := by
  simp [exec, execFnFinish, he, ha, hn, hl, hr]

theorem exec_lrRead_passes (he : s.status.err = false) (hl : s.l = some l) (hr : s.r = some r) :
    exec .lrRead s = .next (s.setDout (l ++ r : Block)) := by
  simp [exec, execLrRead, he, hl, hr]

theorem exec_encBlock_passes (h : s.ReadyForBlock ks) :
    exec .encBlock s = .next ((s.setLr (encryptHalves s.tables ks.toList s.port.din).1
      (encryptHalves s.tables ks.toList s.port.din).2).setDout (encrypt s.tables ks.toList s.port.din)) := by
  simp [exec, execEncBlock, h.running, h.idle, h.full, roundKeys?_of_all h.keys]

theorem exec_decBlock_passes (h : s.ReadyForBlock ks) :
    exec .decBlock s = .next ((s.setLr (decryptHalves s.tables ks.toList s.port.din).1
      (decryptHalves s.tables ks.toList s.port.din).2).setDout (decrypt s.tables ks.toList s.port.din)) := by
  simp [exec, execDecBlock, h.running, h.idle, h.full, roundKeys?_of_all h.keys]

/-- While a block is in flight, the block fields of STATUS move by their count alone. -/
theorem setBlk_of_active (ha : s.status.blkActive = true) (n : Fin 17) :
    s.setBlk true s.status.blkDir n = { s with status := { s.status with blkCnt := n } } := by
  rw [State.setBlk, ← ha]

/-- R202, R203, R207, R208: the faults of the four commands that open a block, in their order. -/
theorem openingCommand_faults {i : Instr} (he : s.status.err = false)
    (hi : checksOf i s = [(s.status.blkActive, .blkSequence), (decide (s.status.ksCnt ≠ 16), .ksIncomplete)]) :
    (s.status.blkActive = true → exec i s = .next (s.faulted .blkSequence)) ∧
    (s.status.blkActive = false → s.status.ksCnt ≠ 16 → exec i s = .next (s.faulted .ksIncomplete)) := by
  refine ⟨fun ha => ?_, fun ha hc => ?_⟩
  · exact firstFailingCheckIsTheFaultTaken i s _ he (by simp [hi, firstFailing, ha])
  · exact firstFailingCheckIsTheFaultTaken i s _ he (by simp [hi, firstFailing, ha, hc])

end Sys2Proof.Machine
end

section
/-! The block by steps, bit by bit (spec 44_feistel_network R202 to R206). -/

namespace Sys2Proof.Machine

/-- The halves of a block side by side are the block. -/
@[simp] theorem splitBlock_append (x : Block) : ((splitBlock x).1 ++ (splitBlock x).2 : Block) = x :=
  upper32_append_lower32 x

/-- R101 on whole blocks. -/
theorem permutesTo_permute_block {table : List Nat} (ht : IsTable 64 64 table) (x : Block) :
    PermutesTo 64 64 table x (permute 64 table x) := by
  obtain ⟨hl, hentry⟩ := ht
  have h := permutesTo_permute x (fun _ _ => rfl) hl hentry (Nat.le_refl 64)
  rwa [BitVec.setWidth_eq] at h

/-- R200 step 3, bit by bit: the xor of the old left half and the new right one is F of the old right one. -/
theorem roundTo_feistelRound (T : AdmittedTables) (lr : HalfBlock × HalfBlock) (k : RoundKey) :
    RoundTo T k lr.1 lr.2 (feistelRound T lr k).1 (feistelRound T lr k).2 := by
  have hxor : lr.1 ^^^ (feistelRound T lr k).2 = roundFunction T lr.2 k := by
    simp [feistelRound]
  refine ⟨rfl, ?_⟩
  rw [hxor]
  exact roundFunctionTo_roundFunction T lr.2 k (getLsbD_zext lr.2 (by decide))

/-- R204: the entry a round reads, from the start of the store when encrypting and from its end when decrypting. -/
theorem rk_roundKeyIndex (s : State) {dir : Dir} {n : Fin 16} {k : RoundKey}
    (henc : dir = .encrypt → s.rk[n.val] = some k) (hdec : dir = .decrypt → s.rk[15 - n.val] = some k) :
    s.rk[(roundKeyIndex dir n).val] = some k := by
  cases dir with
  | encrypt => exact henc rfl
  | decrypt =>
    have hidx : (roundKeyIndex .decrypt n).val = 15 - n.val := by rw [roundKeyIndex, Fin.val_rev]; omega
    simpa only [hidx] using hdec rfl

/-- Settles O35: the halves of the block the command takes, and the two checks that open one. -/
theorem startCommandsOpenABlock : Obligations.StartCommandsOpenABlock := by
  refine ⟨rfl, rfl, fun s he => ⟨fun ha hc => ⟨?_, ?_⟩, ?_, ?_⟩⟩
  · refine ⟨_, _, ?_, exec_fnStartEnc_passes he ha hc⟩
    rw [splitBlock_append]
    exact permutesTo_permute_block (isTable_ip s.tables) s.port.din
  · exact ⟨_, _, (splitBlock_append _).symm, exec_fnStartDec_passes he ha hc⟩
  · exact fun ha => ⟨(openingCommand_faults he rfl).1 ha, (openingCommand_faults he rfl).1 ha⟩
  · exact fun ha hc => ⟨(openingCommand_faults he rfl).2 ha hc, (openingCommand_faults he rfl).2 ha hc⟩

/-- Settles O36: one round bit by bit, with the key of the block's direction, and the two checks. -/
theorem fnRoundDoesOneRound : Obligations.FnRoundDoesOneRound := by
  refine ⟨rfl, fun s he => ⟨fun n l r k ha hn hl hr henc hdec => ?_, fun ha => ?_, fun ha hn => ?_⟩⟩
  · refine ⟨_, _, roundTo_feistelRound s.tables (l, r) k, ?_⟩
    rw [exec_fnRound_passes he ha (Fin.ext hn) hl hr (rk_roundKeyIndex s henc hdec)]
    exact congrArg _ (setBlk_of_active (s := s.setLr _ _) ha n.succ)
  · exact firstFailingCheckIsTheFaultTaken .fnRound s _ he (by simp [checksOf, firstFailing, ha])
  · exact firstFailingCheckIsTheFaultTaken .fnRound s _ he (by simp [checksOf, firstFailing, ha, hn])

/-- Settles O37: the swapped halves, through IIP when decrypting, and the two checks. -/
theorem fnFinishSwapsAndClosesTheBlock : Obligations.FnFinishSwapsAndClosesTheBlock := by
  refine ⟨rfl, fun s he => ⟨fun l r ha hn hl hr => ?_, fun ha => ?_, fun ha hn => ?_⟩⟩
  · refine ⟨_, fun hdir => ?_, fun hdir => ?_, exec_fnFinish_passes he ha hn hl hr⟩
    · rw [hdir]
      rfl
    · rw [hdir]
      exact permutesTo_permute_block (isTable_iip s.tables) (r ++ l)
  · exact firstFailingCheckIsTheFaultTaken .fnFinish s _ he (by simp [checksOf, firstFailing, ha])
  · exact firstFailingCheckIsTheFaultTaken .fnFinish s _ he (by simp [checksOf, firstFailing, ha, hn])

/-- Settles O38: L ‖ R as a number, and the check that L holds a value. -/
theorem lrReadReturnsLAndR : Obligations.LrReadReturnsLAndR := by
  refine ⟨rfl, fun s he => ⟨fun l r hl hr => ?_, fun hl => ?_⟩⟩
  · exact ⟨_, exec_lrRead_passes he hl hr, toNat_concat l r⟩
  · exact firstFailingCheckIsTheFaultTaken .lrRead s _ he (by simp [checksOf, firstFailing, hl])

end Sys2Proof.Machine
end

section
/-! The whole-block commands, round by round (spec 44_feistel_network R200, R201, R207, R208). -/

namespace Sys2Proof.Machine

/-- `(l, r)` after the first `n` of the rounds with `keys`. -/
def roundHalves (T : AdmittedTables) (keys : List RoundKey) (lr : HalfBlock × HalfBlock) (n : Nat) :
    HalfBlock × HalfBlock :=
  feistelRounds T (keys.take n) lr

theorem roundHalves_length (T : AdmittedTables) {keys : List RoundKey} {n : Nat} (hlen : keys.length = n)
    (lr : HalfBlock × HalfBlock) : roundHalves T keys lr n = feistelRounds T keys lr := by
  rw [roundHalves, List.take_of_length_le (Nat.le_of_eq hlen)]

/-- Round `n + 1` is done with the key at `n`. -/
theorem roundTo_roundHalves (T : AdmittedTables) {keys : List RoundKey} {n : Nat} {k : RoundKey}
    (hk : keys[n]? = some k) (lr : HalfBlock × HalfBlock) :
    RoundTo T k (roundHalves T keys lr n).1 (roundHalves T keys lr n).2 (roundHalves T keys lr (n + 1)).1
      (roundHalves T keys lr (n + 1)).2 := by
  have hround : roundHalves T keys lr (n + 1) = feistelRound T (roundHalves T keys lr n) k := by
    rw [roundHalves, List.take_add_one, hk, Option.toList_some, feistelRounds_append, roundHalves]
  rw [hround]
  exact roundTo_feistelRound T _ k

/-- R200, R201: the halves after each of the 16 rounds, from the halves a block begins with to those it ends with. -/
theorem exists_sixteen_rounds (T : AdmittedTables) {keys : List RoundKey} (hlen : keys.length = 16)
    (lr : HalfBlock × HalfBlock) :
    ∃ ls rs : Nat → HalfBlock, ls 0 = lr.1 ∧ rs 0 = lr.2 ∧
      (∀ n k, keys[n]? = some k → RoundTo T k (ls n) (rs n) (ls (n + 1)) (rs (n + 1))) ∧
      ls 16 = (feistelRounds T keys lr).1 ∧ rs 16 = (feistelRounds T keys lr).2 := by
  have hlast := roundHalves_length T hlen lr
  exact ⟨fun n => (roundHalves T keys lr n).1, fun n => (roundHalves T keys lr n).2, rfl, rfl,
    fun _ _ hk => roundTo_roundHalves T hk lr, congrArg Prod.fst hlast, congrArg Prod.snd hlast⟩

/-- Settles O39: Encrypt's 16 rounds from the halves of IP of DIN, and the two checks that open a block. -/
theorem encBlockRunsSixteenRounds : Obligations.EncBlockRunsSixteenRounds := by
  refine ⟨rfl, fun s he => ⟨fun ks ha hc hk => ?_, openingCommand_faults he rfl⟩⟩
  obtain ⟨ls, rs, hl, hr, hrounds, hl', hr'⟩ :=
    exists_sixteen_rounds s.tables ks.length_toList (splitBlock (permute 64 s.tables.ip s.port.din))
  refine ⟨ls, rs, ?_, fun i => hrounds i.val _ (by simp), ?_⟩
  · rw [hl, hr, splitBlock_append]
    exact permutesTo_permute_block (isTable_ip s.tables) s.port.din
  · rw [hl', hr']
    exact exec_encBlock_passes ⟨he, ha, hc, hk⟩

/-- Settles O40: Decrypt's 16 rounds from the halves of DIN, the keys in descending order, IIP of the swapped halves,
and the two checks that open a block. -/
theorem decBlockRunsSixteenRoundsBackwards : Obligations.DecBlockRunsSixteenRoundsBackwards := by
  refine ⟨rfl, fun s he => ⟨fun ks ha hc hk => ?_, openingCommand_faults he rfl⟩⟩
  have hlen : ks.toList.reverse.length = 16 := by simp
  obtain ⟨ls, rs, hl, hr, hrounds, hl', hr'⟩ := exists_sixteen_rounds s.tables hlen (splitBlock s.port.din)
  refine ⟨ls, rs, decrypt s.tables ks.toList s.port.din, ?_, fun i => hrounds i.val _ (by simp), ?_, ?_⟩
  · rw [hl, hr, splitBlock_append]
  · rw [hl', hr']
    exact permutesTo_permute_block (isTable_iip s.tables) _
  · rw [hl', hr']
    exact exec_decBlock_passes ⟨he, ha, hc, hk⟩

end Sys2Proof.Machine
end

section
/-! A key, a block and the block back on the ports (spec 44_feistel_network R209; 70_reset R283, R293). -/

namespace Sys2Proof.Machine

variable {s u : State} {i : Instr} {din : Block} {kin : RoundKey} {rest : List HostEvent} {ks : Vector RoundKey 16}

/-- The first step of a run on a running engine is the host's first command. -/
theorem run_succ_of_issue (he : s.status.err = false) (hi : s.inbox = issue (encode i) din kin :: rest)
    (hx : exec i (s.present { cmd := encode i, din := din, kin := kin } rest) = .next u) (n : Nat) :
    Host.Core.run core (n + 1) s = Host.Core.run core n u := by
  have hstep : core.step s = .next u :=
    calc step s = runCommand (s.present { cmd := encode i, din := din, kin := kin } rest) :=
          step_command ((pending_running he).trans hi)
      _ = exec i _ := runCommand_of_decode_ok (decode_encode i)
      _ = .next u := hx
  simp only [Host.Core.run, hstep]

/-- KS_GEN leaves an engine that can open a block with the keys it made. -/
theorem run_ksGen (he : s.status.err = false) (ha : s.status.blkActive = false)
    (hi : s.inbox = issue (encode .ksGen) din kin :: rest) :
    ∃ u, (∀ n, Host.Core.run core (n + 1) s = Host.Core.run core n u) ∧
      u.ReadyForBlock (keySchedule s.tables din) ∧ u.tables = s.tables ∧ u.inbox = rest :=
  ⟨_, run_succ_of_issue he hi (exec_ksGen_passes he ha), ⟨he, ha, rfl, fun j => getElem_sixteen _ _ j.isLt⟩, rfl, rfl⟩

theorem run_encBlock (h : s.ReadyForBlock ks) (hi : s.inbox = issue (encode .encBlock) din kin :: rest) :
    ∃ u, (∀ n, Host.Core.run core (n + 1) s = Host.Core.run core n u) ∧ u.ReadyForBlock ks ∧
      u.tables = s.tables ∧ u.inbox = rest ∧ u.dout = some (encrypt s.tables ks.toList din) :=
  ⟨_, run_succ_of_issue h.running hi (exec_encBlock_passes (h.present _ _)), (h.present _ _).setLr_setDout _ _ _, rfl,
    rfl, rfl⟩

theorem run_decBlock (h : s.ReadyForBlock ks) (hi : s.inbox = issue (encode .decBlock) din kin :: rest) :
    ∃ u, (∀ n, Host.Core.run core (n + 1) s = Host.Core.run core n u) ∧ u.ReadyForBlock ks ∧
      u.dout = some (decrypt s.tables ks.toList din) :=
  ⟨_, run_succ_of_issue h.running hi (exec_decBlock_passes (h.present _ _)), (h.present _ _).setLr_setDout _ _ _, rfl⟩

/-- R283: a key and then a block, with whatever the host does after them still to come. -/
theorem run_ksGen_encBlock {key x : Block} {a b : RoundKey} (he : s.status.err = false)
    (ha : s.status.blkActive = false)
    (hi : s.inbox = issue (encode .ksGen) key a :: issue (encode .encBlock) x b :: rest) :
    ∃ u, (∀ n, Host.Core.run core (n + 2) s = Host.Core.run core n u) ∧
      u.ReadyForBlock (keySchedule s.tables key) ∧ u.tables = s.tables ∧ u.inbox = rest ∧
      u.dout = some (encrypt s.tables (keySchedule s.tables key).toList x) := by
  obtain ⟨t, hrun, hready, htables, hinbox⟩ := run_ksGen he ha hi
  obtain ⟨u, hrun', hready', htables', hinbox', hdout⟩ := run_encBlock hready hinbox
  rw [htables] at htables' hdout
  exact ⟨u, fun n => (hrun (n + 1)).trans (hrun' n), hready', htables', hinbox', hdout⟩

/-- Settles O44: the tables and the round keys stay from ENC_BLOCK to DEC_BLOCK, and Decrypt undoes Encrypt. -/
theorem keyEncryptDecryptReturnsTheBlock : Obligations.KeyEncryptDecryptReturnsTheBlock := by
  intro s key x a b c he ha
  obtain ⟨t, hrun, hready, -, -, hdout⟩ := run_ksGen_encBlock
    (s := { s with inbox := [issue 0x3200 key a, issue 0x5400 x b] }) he ha rfl
  obtain ⟨t', hrun', hready', htables', hinbox', -⟩ := run_ksGen_encBlock
    (s := { s with inbox := [issue 0x3200 key a, issue 0x5400 x b,
      issue 0x5500 (encrypt s.tables (keySchedule s.tables key).toList x) c] }) he ha rfl
  obtain ⟨u, hrun'', hready'', hdout'⟩ := run_decBlock hready' hinbox'
  rw [htables', decrypt_encrypt] at hdout'
  exact ⟨_, t, u, hrun 0, hdout, hready.running, (hrun' 1).trans (hrun'' 0), hdout', hready''.running⟩

end Sys2Proof.Machine
end

section
/-! The control commands, and the STATUS word bit by bit (spec 10_state R25; 45_control R230, R231). -/

namespace Sys2Proof.Machine

/-! ### The STATUS word -/

/-- R9: the upper vector of a join counts in units of the width of the lower one. -/
theorem toNat_append_eq_add {m n : Nat} (x : BitVec m) (y : BitVec n) :
    (x ++ y).toNat = x.toNat * 2 ^ n + y.toNat := by
  rw [BitVec.toNat_append, ← Nat.shiftLeft_add_eq_or_of_lt y.isLt, Nat.shiftLeft_eq]

theorem getLsbD_eq_of_toNat_div_mod {n i : Nat} {v : BitVec n} {b : Bool} (h : v.toNat / 2 ^ i % 2 = b.toNat) :
    v.getLsbD i = b := by
  rw [BitVec.getLsbD, Nat.testBit_eq_decide_div_mod_eq, h]
  cases b <;> rfl

theorem toNat_causeField (k : Option Cause) : (causeField k).toNat = causeNumber k := by
  cases k with
  | none => rfl
  | some k => cases k <;> rfl

theorem causeNumber_lt (k : Option Cause) : causeNumber k < 16 := toNat_causeField k ▸ (causeField k).isLt

theorem Dir.bit_eq (dir : Dir) : dir.bit = decide (dir = .decrypt) := by cases dir <;> rfl

/-- R25: the fields of the STATUS word, each at its weight. -/
theorem Status.toNat_word (st : Status) :
    st.word.toNat = st.blkCnt.val * 2 ^ 13 + st.blkDir.bit.toNat * 2 ^ 12 + st.blkActive.toNat * 2 ^ 11 +
      st.ksCnt.val * 2 ^ 6 + st.ksLoaded.toNat * 2 ^ 5 + causeNumber st.cause * 2 ^ 1 + st.err.toNat := by
  simp only [Status.word, toNat_append_eq_add, toNat_causeField, BitVec.toNat_ofBool, BitVec.toNat_ofNat,
    Nat.mod_eq_of_lt (st.blkCnt.isLt.trans (by decide : 17 < 2 ^ 5)),
    Nat.mod_eq_of_lt (st.ksCnt.isLt.trans (by decide : 17 < 2 ^ 5))]
  omega

/-! ### The statements -/

/-- Settles O18: the word by its value, and NOP's action is to answer the state. -/
theorem nopChangesNothing : Obligations.NopChangesNothing :=
  ⟨by decide, fun _ => rfl⟩

/-- Settles O19: a field of the STATUS word is read back at its weight, since each lower field stays below it. -/
theorem statusReadReturnsTheStatusLayout : Obligations.StatusReadReturnsTheStatusLayout := by
  refine ⟨by decide, fun s => ⟨s.status.word.setWidth 64, rfl, ?_⟩⟩
  have hword := (BitVec.toNat_setWidth_of_le (show 32 ≤ 64 by decide)).trans s.status.toNat_word
  have hcause := causeNumber_lt s.status.cause
  have herr := s.status.err.toNat_lt
  have hloaded := s.status.ksLoaded.toNat_lt
  have hactive := s.status.blkActive.toNat_lt
  have hdir := s.status.blkDir.bit.toNat_lt
  rw [← Dir.bit_eq]
  refine ⟨getLsbD_eq_of_toNat_div_mod ?_, ?_, getLsbD_eq_of_toNat_div_mod ?_, ?_, getLsbD_eq_of_toNat_div_mod ?_,
    getLsbD_eq_of_toNat_div_mod ?_, ?_, ?_⟩ <;> rw [hword] <;> omega

end Sys2Proof.Machine
end

section
/-! Steps of a halted engine (spec 60 R243; 92 D10, 93 U8; logs 2 and 5). -/

namespace Sys2Proof.Machine

variable {s : State} {t : Transaction} {before rest : List HostEvent}

/-! ### Events the engine takes and events it is stuck for -/

/-- The step on the word of a command, where the engine takes it. -/
theorem step_of_eq_encode {i : Instr} (h : s.pending = .command t :: rest) (hw : t.cmd = encode i) :
    step s = exec i (s.present t rest) :=
  (step_command h).trans (runCommand_of_decode_ok ((decode_eq_ok_iff_eq_encode _ _).2 hw))

/-- R230: halted or not, the engine takes a NOP. -/
theorem step_nop (hi : s.inbox = .command t :: rest) (ht : t.cmd = 0x0000) : step s = .next (s.present t rest) :=
  step_of_eq_encode (i := .nop) (pending_of_taken hi (ignores_command_eq_false (by simp [ht]))) ht

/-- R231: halted or not, the engine takes a STATUS_READ. -/
theorem step_statusRead (hi : s.inbox = .command t :: rest) (ht : t.cmd = 0x0100) :
    step s = .next ((s.present t rest).setDout (s.status.word.setWidth 64)) :=
  step_of_eq_encode (i := .statusRead) (pending_of_taken hi (ignores_command_eq_false (by simp [ht]))) ht

/-- R243: the words a halted engine is stuck for. -/
theorem ignores_command_eq_true (he : s.status.err = true) (hw : t.cmd ≠ 0x0000 ∧ t.cmd ≠ 0x0100) :
    s.ignores (.command t) = true :=
  stuckOn_eq_true.2 ⟨he, hw⟩

/-- U8: an engine that is stuck for all the host does makes no step. -/
theorem step_stuck (h : ∀ e ∈ s.inbox, s.ignores e = true) : step s = .next s := by
  have hp : s.pending = [] := List.dropWhile_eq_nil_iff.2 h
  simp [step, stepEngine, hp]

/-- Log 5: the events the engine is stuck for leave no trace in the step on the event it takes after them. -/
theorem step_passes_over (hi : s.inbox = before ++ rest) (hb : ∀ e ∈ before, s.ignores e = true)
    (hr : ∃ e ∈ rest, s.ignores e = false) : step s = step { s with inbox := rest } := by
  have hp : s.pending = State.pending { s with inbox := rest } :=
    (congrArg (List.dropWhile s.ignores) hi).trans (List.dropWhile_append_of_pos hb)
  cases hq : State.pending { s with inbox := rest } with
  | nil =>
    obtain ⟨e, he, hn⟩ := hr
    have hall : s.ignores e = true := List.dropWhile_eq_nil_iff.1 hq e he
    simp [hn] at hall
  | cons e later =>
    simp only [step, stepEngine, hp, hq]
    cases e <;> rfl

theorem run_of_step_eq_self (h : step s = .next s) (n : Nat) : Host.Core.run core n s = .next s := by
  induction n with
  | zero => rfl
  | succ n ih =>
    have hstep : core.step s = .next s := h
    simp only [Host.Core.run, hstep, ih]

/-! ### The statements -/

/-- Settles O13: a halted engine takes NOP and STATUS_READ, and passes over every other word or is stuck for it. -/
theorem haltedEngineAnswersOnlyNopAndStatusRead : Obligations.HaltedEngineAnswersOnlyNopAndStatusRead := by
  refine fun s he => ⟨fun i _ hs => exec_halted he hs, fun t rest hi => ⟨step_nop hi, step_statusRead hi, ?_⟩⟩
  intro h0 h1
  have hw : s.ignores (.command t) = true := ignores_command_eq_true he ⟨h0, h1⟩
  constructor
  · exact step_passes_over (before := [.command t]) hi (by simpa using hw)
  · intro hr
    exact step_stuck (by rw [hi]; exact List.forall_mem_cons.2 ⟨hw, hr⟩)

/-- Settles O58: the words of the list are passed over where an event the engine takes follows them, and are no step
where none does. -/
theorem stuckEngineMakesNoStepUntilReset : Obligations.StuckEngineMakesNoStepUntilReset := by
  intro s ts he hts
  have hstuck : ∀ e ∈ ts.map HostEvent.command, s.ignores e = true :=
    List.forall_mem_map.2 fun t ht => ignores_command_eq_true he (hts t ht)
  have hpass (e : HostEvent) (more : List HostEvent) (hn : s.ignores e = false) :
      step { s with inbox := ts.map .command ++ e :: more } = step { s with inbox := e :: more } :=
    step_passes_over (s := { s with inbox := ts.map .command ++ e :: more }) rfl hstuck ⟨e, List.mem_cons_self, hn⟩
  refine ⟨run_of_step_eq_self (step_stuck hstuck), fun more => ⟨fun t ht => ?_, fun t ht => ?_, fun p => ?_⟩⟩
  · exact (hpass _ more (ignores_command_eq_false (by simp [ht]))).trans (step_nop rfl ht)
  · exact (hpass _ more (ignores_command_eq_false (by simp [ht]))).trans (step_statusRead rfl ht)
  · have hreset := hpass (.reset p) more rfl
    exact ⟨hreset, _, hreset.trans (step_reset (pending_of_taken rfl rfl)), rfl⟩

end Sys2Proof.Machine
end

section
/-! Faults and completions (spec 60 R240 to R242, R245): a command whose checks all pass leaves ERR and CAUSE, so a step
that halts a running engine is the fault of a rejected word or of a failing check. -/

namespace Sys2Proof.Machine

variable {s u : State} {i : Instr} {t : Transaction} {rest : List HostEvent}

@[simp] theorem firstFailing_cons_eq_none {bad : Bool} {k : Cause} {checks : List (Bool × Cause)} :
    firstFailing ((bad, k) :: checks) = none ↔ bad = false ∧ firstFailing checks = none := by
  cases bad <;> simp [firstFailing]

@[simp] theorem firstFailing_nil : firstFailing [] = none := rfl

/-! ### The shared operations, where their checks pass -/

/-- The result, if it is a next state, has the ERR and CAUSE of `s`. -/
def KeepsFaultFields (s : State) (r : Result) : Prop :=
  ∀ u, r = .next u → u.status.err = s.status.err ∧ u.status.cause = s.status.cause

theorem keepsFaultFields_next (he : u.status.err = s.status.err) (hc : u.status.cause = s.status.cause) :
    KeepsFaultFields s (.next u) := by
  rintro _ ⟨⟩
  exact ⟨he, hc⟩

theorem unlessHalted_keepsFaultFields {go : Result} (h : KeepsFaultFields s go) :
    KeepsFaultFields s (unlessHalted s go) := by
  intro u hu
  rcases unlessHalted_next hu with ⟨-, rfl⟩ | ⟨-, hgo⟩
  · exact ⟨rfl, rfl⟩
  · exact h u hgo

theorem failIf_keepsFaultFields {bad : Bool} {k : Cause} {go : Result} (hb : bad = false)
    (h : KeepsFaultFields s go) : KeepsFaultFields s (failIf bad k s go) := by
  rwa [failIf_pass hb]

theorem withDin_keepsFaultFields {n : Nat} {f : BitVec n → Result} (hfit : s.port.din.toNat < 2 ^ n)
    (h : ∀ v, KeepsFaultFields s (f v)) : KeepsFaultFields s (withDin n s f) := by
  rw [withDin_fits hfit]
  exact h _

theorem openBlock_keepsFaultFields {go : Result} (ha : s.status.blkActive = false) (hc : s.status.ksCnt = 16)
    (h : KeepsFaultFields s go) : KeepsFaultFields s (openBlock s go) := by
  rwa [openBlock_ready ha hc]

/-- Reading a register that holds `none` is the model's stop, which gives no next state. -/
theorem withValue_keepsFaultFields {α : Type} {r : Option α} {f : α → Result} (h : ∀ v, KeepsFaultFields s (f v)) :
    KeepsFaultFields s (withValue r f) := by
  intro u hu
  obtain ⟨v, -, hv⟩ := withValue_next hu
  exact h v u hv

/-! ### The commands, where their checks pass -/

theorem execKsStep_keepsFaultFields (ha : s.status.blkActive = false) (hl : s.status.ksLoaded = true)
    (hn : s.status.ksCnt ≠ 16) : KeepsFaultFields s (execKsStep s) := by
  refine unlessHalted_keepsFaultFields (failIf_keepsFaultFields ha (failIf_keepsFaultFields (by simp [hl]) ?_))
  split
  case h_1 hnext => exact absurd (nextIndex?_none.1 hnext) hn
  case h_2 => exact withValue_keepsFaultFields fun _ => withValue_keepsFaultFields fun _ => keepsFaultFields_next rfl rfl

theorem execFnRound_keepsFaultFields (ha : s.status.blkActive = true) (hn : s.status.blkCnt ≠ 16) :
    KeepsFaultFields s (execFnRound s) := by
  refine unlessHalted_keepsFaultFields (failIf_keepsFaultFields (by simp [ha]) ?_)
  split
  case h_1 hnext => exact absurd (nextIndex?_none.1 hnext) hn
  case h_2 =>
    exact withValue_keepsFaultFields fun _ => withValue_keepsFaultFields fun _ => withValue_keepsFaultFields fun _ =>
      keepsFaultFields_next rfl rfl

theorem execRkRead_keepsFaultFields {ii : Fin 16} (hk : s.rk[ii.val] ≠ none) :
    KeepsFaultFields s (execRkRead ii s) := by
  refine unlessHalted_keepsFaultFields ?_
  split
  case h_1 hnone => exact absurd hnone hk
  case h_2 => exact keepsFaultFields_next rfl rfl

theorem execLrRead_keepsFaultFields (hl : s.l ≠ none) : KeepsFaultFields s (execLrRead s) := by
  refine unlessHalted_keepsFaultFields ?_
  split
  case h_1 hnone => exact absurd hnone hl
  case h_2 => exact withValue_keepsFaultFields fun _ => keepsFaultFields_next rfl rfl

/-- R240, R241: a command raises nothing but its checks' faults. -/
theorem exec_keepsFaultFields (h : firstFailing (checksOf i s) = none) : KeepsFaultFields s (exec i s) := by
  cases i with
  | nop | statusRead => exact keepsFaultFields_next rfl rfl
  | permPc1 | permIp | permIip =>
    exact unlessHalted_keepsFaultFields (withDin_keepsFaultFields s.port.din.isLt fun _ => keepsFaultFields_next rfl rfl)
  | permPc2 | permE | permP | sbox | slayer | roundF =>
    have hfit := of_decide_eq_false (firstFailing_cons_eq_none.1 h).1
    exact unlessHalted_keepsFaultFields
      (withDin_keepsFaultFields (Nat.not_le.1 hfit) fun _ => keepsFaultFields_next rfl rfl)
  | ksLoad | ksGen =>
    obtain ⟨ha, -⟩ := firstFailing_cons_eq_none.1 h
    exact unlessHalted_keepsFaultFields (withDin_keepsFaultFields s.port.din.isLt fun _ =>
      failIf_keepsFaultFields ha (keepsFaultFields_next rfl rfl))
  | ksStep =>
    obtain ⟨ha, hl, hn⟩ : s.status.blkActive = false ∧ s.status.ksLoaded = true ∧ s.status.ksCnt ≠ 16 := by
      simpa [checksOf] using h
    exact execKsStep_keepsFaultFields ha hl hn
  | rkRead ii => exact execRkRead_keepsFaultFields (by simpa [checksOf] using h)
  | cdRead =>
    obtain ⟨hl, -⟩ := firstFailing_cons_eq_none.1 h
    exact unlessHalted_keepsFaultFields (failIf_keepsFaultFields hl (withValue_keepsFaultFields fun _ =>
      withValue_keepsFaultFields fun _ => keepsFaultFields_next rfl rfl))
  | fnStartEnc | fnStartDec =>
    obtain ⟨ha, hc⟩ : s.status.blkActive = false ∧ s.status.ksCnt = 16 := by simpa [checksOf] using h
    exact unlessHalted_keepsFaultFields (withDin_keepsFaultFields s.port.din.isLt fun _ =>
      openBlock_keepsFaultFields ha hc (keepsFaultFields_next rfl rfl))
  | fnRound =>
    obtain ⟨ha, hn⟩ : s.status.blkActive = true ∧ s.status.blkCnt ≠ 16 := by simpa [checksOf] using h
    exact execFnRound_keepsFaultFields ha hn
  | fnFinish =>
    obtain ⟨ha, hn⟩ := firstFailing_cons_eq_none.1 h
    obtain ⟨hn, -⟩ := firstFailing_cons_eq_none.1 hn
    exact unlessHalted_keepsFaultFields (failIf_keepsFaultFields ha (failIf_keepsFaultFields hn
      (withValue_keepsFaultFields fun _ => withValue_keepsFaultFields fun _ => keepsFaultFields_next rfl rfl)))
  | encBlock | decBlock =>
    obtain ⟨ha, hc⟩ : s.status.blkActive = false ∧ s.status.ksCnt = 16 := by simpa [checksOf] using h
    exact unlessHalted_keepsFaultFields (withDin_keepsFaultFields s.port.din.isLt fun _ =>
      openBlock_keepsFaultFields ha hc (withValue_keepsFaultFields fun _ => keepsFaultFields_next rfl rfl))
  | lrRead => exact execLrRead_keepsFaultFields (by simpa [checksOf] using h)

/-- R83: on a running engine a command that records a fault records that of its first failing check. -/
theorem exec_fault (he : s.status.err = false) (h : exec i s = .next u) (hu : u.status.err = true) :
    ∃ k, firstFailing (checksOf i s) = some k ∧ u = s.faulted k := by
  cases hf : firstFailing (checksOf i s) with
  | none =>
    have hkeeps := (exec_keepsFaultFields hf u h).1
    simp [he, hu] at hkeeps
  | some k =>
    rw [firstFailingCheckIsTheFaultTaken i s k he hf] at h
    cases h
    exact ⟨k, rfl, rfl⟩

/-- No check reads the host's list. -/
theorem checksOf_present (i : Instr) (s : State) (t : Transaction) (rest : List HostEvent) :
    checksOf i (s.present t rest) = checksOf i { s with port := t } := rfl

/-! ### The statements -/

/-- Settles O12: of what a step can do, only a rejected word and a command with a failing check halt a running engine. -/
theorem everyFaultIsPrecise : Obligations.EveryFaultIsPrecise := by
  intro s u he h hu
  rcases step_cases h with ⟨-, rfl⟩ | ⟨p, rest, -, rfl⟩ | ⟨t, rest, i, hp, -, hd, hx⟩ | ⟨t, rest, e, hp, hd, -, rfl⟩
  · simp [he] at hu
  · cases hu
  · obtain ⟨k, hk, rfl⟩ := exec_fault (s := s.present t rest) he hx hu
    refine ⟨t, rest, k, (pending_running he).symm.trans hp, rfl, ?_, ?_, ?_⟩ <;> rw [hd]
    · rintro ⟨⟩
    · rintro ⟨⟩
    · rintro _ ⟨⟩
      rw [← checksOf_present i s t rest, hk]
  · refine ⟨t, rest, decodeCause e, (pending_running he).symm.trans hp, rfl, ?_, ?_, ?_⟩ <;> rw [hd]
    · rintro ⟨⟩
      rfl
    · rintro ⟨⟩
      rfl
    · rintro _ ⟨⟩

/-- Settles O17: the invariants give every register the command reads, and without a failing check it leaves ERR and
CAUSE, which are 0 and none. -/
theorem commandCompletesWhenNoCheckFails : Obligations.CommandCompletesWhenNoCheckFails := by
  intro i s hinv he hf
  obtain ⟨u, hu⟩ := exec_completes hinv i
  obtain ⟨herr, hcause⟩ := exec_keepsFaultFields hf u hu
  obtain ⟨-, -, -, -, -, herrIffCause, -⟩ := hinv
  exact ⟨u, hu, herr.trans he, hcause.trans (herrIffCause.1 he)⟩

end Sys2Proof.Machine
end

section
/-! The invariants of R29 (spec 10_state): they hold at reset, and every step keeps them. -/

namespace Sys2Proof.Machine

variable {s u : State} {i : Instr}

/-! ### What each kind of register write does to the invariants -/

theorem State.Inv.rkIffStepped (h : s.Inv) : s.RkIffStepped := by
  obtain ⟨-, -, hrk, -⟩ := h
  exact hrk

theorem State.Inv.blockHasHalves (h : s.Inv) : s.BlockHasHalves := by
  obtain ⟨-, -, -, hb, -⟩ := h
  exact hb

theorem State.Inv.enterFault (h : s.Inv) (k : Cause) : (s.enterFault k).Inv := by
  obtain ⟨hcd, hu, hrk, hb, hidle, -, hlr⟩ := h
  exact ⟨hcd, hu, hrk, hb, hidle, by simp [State.ErrIffCause], hlr⟩

/-- The key-schedule fields and registers written together: both halves, a count, and round keys up to the count. That
no block is in flight leaves the count free (R29 item 4). -/
theorem State.Inv.setSchedule (h : s.Inv) (ha : s.status.blkActive = false) (c d : CdHalf)
    {rk : Vector (Option RoundKey) 16} {n : Fin 17} (hrk : ∀ j : Fin 16, rk[j.val] ≠ none ↔ j.val < n.val) :
    (((s.setCd c d).setRkStore rk).setKs n).Inv := by
  obtain ⟨-, -, -, -, hidle, herr, hlr⟩ := h
  refine ⟨by simp [State.CdIffLoaded], by simp [State.NoStepsUnloaded], fun j => ?_, by simp [State.BlockHasHalves, ha],
    hidle, herr, hlr⟩
  simpa using hrk j

/-- A block in flight with both halves, all keys being made. -/
theorem State.Inv.setBlock (h : s.Inv) (hc : s.status.ksCnt = 16) (l r : HalfBlock) (dir : Dir) (n : Fin 17) :
    ((s.setLr l r).setBlk true dir n).Inv := by
  obtain ⟨hcd, hu, hrk, -, -, herr, -⟩ := h
  exact ⟨hcd, hu, hrk, by simp [State.BlockHasHalves, hc], by simp [State.IdleBlockFields], herr, by simp [State.LIffR]⟩

theorem State.Inv.closeBlock (h : s.Inv) : (s.setBlk false .encrypt 0).Inv := by
  obtain ⟨hcd, hu, hrk, -, -, herr, hlr⟩ := h
  exact ⟨hcd, hu, hrk, by simp [State.BlockHasHalves], by simp [State.IdleBlockFields], herr, hlr⟩

theorem State.Inv.setLr (h : s.Inv) (l r : HalfBlock) : (s.setLr l r).Inv := by
  obtain ⟨hcd, hu, hrk, hb, hidle, herr, -⟩ := h
  refine ⟨hcd, hu, hrk, fun ha => ?_, hidle, herr, by simp [State.LIffR]⟩
  obtain ⟨-, -, hc⟩ := hb ha
  exact ⟨by simp, by simp, hc⟩

/-- The invariants do not speak of DOUT. -/
theorem State.Inv.setDout (h : s.Inv) (v : Block) : (s.setDout v).Inv := h

theorem resetRegisters_inv (s : State) : s.resetRegisters.Inv :=
  ⟨⟨iff_of_true rfl rfl, Iff.rfl⟩, fun _ => rfl, fun j => by simp [Status.zero], nofun, fun _ => ⟨rfl, rfl⟩,
    iff_of_true rfl rfl, Iff.rfl⟩

/-! ### Which round keys a key-schedule command leaves (R29 item 3) -/

theorem State.RkIffStepped.set_next (h : s.RkIffStepped) (hl : s.status.ksLoaded = true) {n : Fin 16}
    (hn : s.status.ksCnt.val = n.val) (k : RoundKey) (j : Fin 16) :
    (s.rk.set n.val (some k))[j.val] ≠ none ↔ j.val < n.val + 1 := by
  by_cases hj : n.val = j.val
  · simp [← hj]
  · rw [Vector.getElem_set_ne _ _ hj, h j, hn]
    simp only [hl, true_and]
    omega

/-! ### Commands and steps -/

/-- R29, command by command: the key-schedule commands write C, D, the count and the round keys of the count together,
and the block commands write both halves or close the block. -/
theorem Effect.keeps_inv (h : Effect s i u) (hs : s.Inv) : u.Inv := by
  cases h with
  | same => exact hs
  | fault => exact hs.enterFault _
  | result => exact hs.setDout _
  | ksLoad _ ha => exact hs.setSchedule ha _ _ fun j => by simp
  | ksStep n c d _ ha hl hn =>
    exact hs.setSchedule ha _ _ (hs.rkIffStepped.set_next hl hn _)
  | ksGen _ ha => exact hs.setSchedule ha _ _ fun j => by simp
  | fnStart _ _ _ _ _ _ _ hc => exact hs.setBlock hc _ _ _ _
  | fnRound n l r _ ha =>
    obtain ⟨-, -, hc⟩ := hs.blockHasHalves ha
    exact hs.setBlock hc _ _ _ _
  | fnFinish => exact hs.closeBlock.setDout _
  | block => exact (hs.setLr _ _).setDout _

/-- Settles O47: by what a step can do, and by each command's effect on the registers the invariants speak of. -/
theorem everyStepKeepsTheInvariants : Obligations.EveryStepKeepsTheInvariants := by
  intro s u hs h
  rcases step_cases h with ⟨-, rfl⟩ | ⟨p, rest, -, rfl⟩ | ⟨t, rest, i, -, -, -, hx⟩ | ⟨t, rest, e, -, -, -, rfl⟩
  · exact hs
  · exact resetRegisters_inv _
  · exact (exec_effect i hx).keeps_inv (hs.present t rest)
  · exact (hs.present t rest).enterFault _

/-- Settles O48: `State.reset` holds what a reset leaves in the registers. -/
theorem invariantsHoldAtReset : Obligations.InvariantsHoldAtReset := resetRegisters_inv State.reset

end Sys2Proof.Machine
end

section
/-! No new key while a block is in flight (spec 70_reset R291), and the step without an event (60 R255; log 2). -/

namespace Sys2Proof.Machine

variable {s u : State} {i : Instr}

/-- R153, R155, R156: a command that writes C, D or a round key has checked that no block is in flight. -/
theorem Effect.schedule_eq_of_blkActive (h : Effect s i u) (ha : s.status.blkActive = true) :
    u.c = s.c ∧ u.d = s.d ∧ u.rk = s.rk := by
  cases h with
  | ksLoad _ hidle | ksStep _ _ _ _ hidle | ksGen _ hidle => simp [ha] at hidle
  | _ => exact ⟨rfl, rfl, rfl⟩

/-- A command whose first check is that no block is in flight, as of the key-schedule commands. -/
theorem exec_of_firstCheck_blkActive {rest : List (Bool × Cause)} (ha : s.status.blkActive = true)
    (he : s.status.err = false) (hi : checksOf i s = (s.status.blkActive, .blkSequence) :: rest) :
    exec i s = .next (s.faulted .blkSequence) :=
  firstFailingCheckIsTheFaultTaken i s _ he (by rw [hi, ha]; rfl)

/-- Settles O52: by what a step can do, and by the first check of each key-schedule command. -/
theorem noKeyChangeInTheMiddleOfABlock : Obligations.NoKeyChangeInTheMiddleOfABlock := by
  refine fun s ha => ⟨fun u h hr => ?_, fun he => ⟨?_, ?_, ?_⟩⟩
  · rcases step_cases h with ⟨-, rfl⟩ | ⟨p, rest, hp, -⟩ | ⟨t, rest, i, -, -, -, hx⟩ | ⟨t, rest, e, -, -, -, rfl⟩
    · exact ⟨rfl, rfl, rfl⟩
    · exact absurd ⟨p, rest, hp⟩ hr
    · exact (exec_effect i hx).schedule_eq_of_blkActive ha
    · exact ⟨rfl, rfl, rfl⟩
  all_goals exact exec_of_firstCheck_blkActive ha he rfl

/-- Settles O9: an engine for which nothing comes is stuck for all that comes. -/
theorem idleStepHoldsTheState : Obligations.IdleStepHoldsTheState :=
  fun _ hi => step_stuck (by simp [hi])

end Sys2Proof.Machine
end

section
/-! One row of the opcode map or none for every word (spec 30_encoding R79 to R82). -/

namespace Sys2Proof

/-- The rows of the opcode map a word matches. -/
abbrev matchingRows (w : CmdWord) : List (CmdWord × CmdWord) := opcodeMap.filter fun row => w &&& row.2 == row.1

theorem length_matchingRows_encode (i : Instr) : (matchingRows (encode i)).length = 1 := by
  cases i with
  | sbox kk => revert kk; decide
  | rkRead ii => revert ii; decide
  | _ => rfl

/-- The row of a command: its operation code, with the reserved bits of its format 0 (R72). -/
def commandRow (i : Instr) : CmdWord × CmdWord := (opcodeOf i ++ 0#8, 0xFF#8 ++ reservedArgBits i)

/-- One command of each row of the opcode map, in the map's order. -/
def rowCommands : List Instr :=
  [.nop, .statusRead, .permPc1, .permPc2, .permE, .permP, .permIp, .permIip, .sbox 0, .slayer, .ksLoad, .ksStep, .ksGen,
    .rkRead 0, .cdRead, .roundF, .fnStartEnc, .fnStartDec, .fnRound, .fnFinish, .encBlock, .decBlock, .lrRead]

theorem opcodeMap_eq_map_commandRow : opcodeMap = rowCommands.map commandRow := rfl

theorem exists_decode_eq_ok_of_row_matches {w : CmdWord} {row : CmdWord × CmdWord} (hrow : row ∈ opcodeMap)
    (hw : w &&& row.2 = row.1) : ∃ i, decode w = .ok i := by
  obtain ⟨i, -, rfl⟩ := List.mem_map.1 (opcodeMap_eq_map_commandRow ▸ hrow)
  obtain ⟨ho, hz⟩ := (and_row_eq_iff i w).1 hw
  obtain ⟨j, hj, hr⟩ := assigned_opcodeOf i (argField w)
  exact ⟨j, decode_eq_ok.2 ⟨ho ▸ hj, hr ▸ hz⟩⟩

theorem matchingRows_eq_nil {w : CmdWord} {e : DecodeError} (h : decode w = .error e) : matchingRows w = [] := by
  refine List.filter_eq_nil_iff.2 fun row hrow hw => ?_
  obtain ⟨i, hi⟩ := exists_decode_eq_ok_of_row_matches hrow (beq_iff_eq.1 hw)
  rw [h] at hi
  cases hi

/-- Settles O4: a word that decodes is a command's word, which matches one row; a word that matches a row decodes. -/
theorem everyWordSelectsOneCommandOrOneDecodeFault : Obligations.EveryWordSelectsOneCommandOrOneDecodeFault := by
  intro w
  cases hd : decode w with
  | ok i =>
    obtain rfl := (decode_eq_ok_iff_eq_encode w i).1 hd
    exact .inl ⟨length_matchingRows_encode i, i, rfl⟩
  | error e =>
    refine .inr ⟨matchingRows_eq_nil hd, ?_⟩
    cases e with
    | illegalOpcode => exact .inl rfl
    | reservedArg => exact .inr rfl

end Sys2Proof
end

section
/-! Inferences of the spec about the datapath: the complement property of F (43_round_function), the S-box index of the
source's worked decode (41_sbox_rom_8x), standard DES (44_feistel_network R210), and what a block's result depends on
(44_feistel_network R211). -/

namespace Sys2Proof.Machine

/-! ### Complementation -/

theorem pos_not {n : Nat} (v : BitVec n) {p : Nat} (h1 : 1 ≤ p) (h2 : p ≤ n) : pos (~~~v) p = !pos v p := by
  rw [pos_eq_getLsbD _ h1 h2, pos_eq_getLsbD _ h1 h2, BitVec.getLsbD_not]
  simp [show n - p < n by omega]

/-- A table of positions takes the inverted bits where it takes the bits. -/
theorem permute_not {n len : Nat} {table : List Nat} (ht : IsTable len n table) (v : BitVec n) :
    (permute len table (~~~v) : BitVec len) = ~~~(permute len table v) := by
  obtain ⟨hl, hentry⟩ := ht
  refine eq_of_pos fun p h1 h2 => ?_
  obtain ⟨he1, hen⟩ := hentry (p - 1) (by omega)
  rw [pos_not _ h1 h2, pos_permute _ hl h1 h2, pos_permute _ hl h1 h2, pos_not _ he1 hen]

/-- Settles O34: the inversion passes through the expansion, and the key mixing cancels it. -/
theorem roundFunctionComplementation : Obligations.RoundFunctionComplementation := by
  intro T r k
  have hmix : permute 48 T.e (~~~r) ^^^ ~~~k = permute 48 T.e r ^^^ k := by
    rw [permute_not (isTable_e T)]
    ext i hi
    simp
  rw [roundFunction, hmix, roundFunction]

/-! ### The worked decode -/

theorem sboxValue_011011 (T : AdmittedTables) (kk : Nat) :
    sboxValue T kk 0b011011 = (T.sboxes.getD kk []).getD 29 0 := rfl

/-- Settles O25: the entry SBOX returns, at the row and the column of the input. -/
theorem workedDecodeReadsIndex29 : Obligations.WorkedDecodeReadsIndex29 := by
  intro kk s he hdin
  obtain ⟨-, hsbox⟩ := sboxReturnsTheSelectedEntry kk
  obtain ⟨v, hv, hvalue⟩ := (hsbox s he).1 (by rw [hdin]; decide)
  rw [hdin] at hvalue
  exact ⟨v, hv, hvalue.trans (sboxValue_011011 s.tables kk.val)⟩

/-! ### Standard DES -/

/-- The final permutation of standard DES is the inverse of its IP. -/
theorem desFinalPermutation_eq_iip : desFinalPermutation = desStandard.iip := by decide

/-- Standard DES is Encrypt with IIP after the closing swap. -/
theorem standardDes_eq_permute_encrypt (ks : List RoundKey) (x : Block) :
    standardDes ks x = permute 64 desStandard.iip (encrypt desStandard ks x) := by
  rw [standardDes, desFinalPermutation_eq_iip]
  rfl

/-- R200, R201: Decrypt is Encrypt with the keys in descending order, where IP and IIP change their places. -/
theorem decrypt_eq_permute_encrypt_reverse (T : AdmittedTables) (ks : List RoundKey) (y : Block) :
    decrypt T ks y = permute 64 T.iip (encrypt T ks.reverse (permute 64 T.iip y)) := by
  rw [decrypt, decryptHalves, encrypt, encryptHalves, permute_ip_permute_iip]

/-- Settles O45: IP and IIP undo each other around Encrypt, and Decrypt is Encrypt with the keys reversed. -/
theorem engineOutputIsDesBeforeItsFinalPermutation : Obligations.EngineOutputIsDesBeforeItsFinalPermutation := by
  refine fun key x y => ⟨?_, standardDes_eq_permute_encrypt _ x, ?_⟩
  · rw [standardDes_eq_permute_encrypt, permute_ip_permute_iip]
  · rw [standardDes_eq_permute_encrypt, decrypt_eq_permute_encrypt_reverse]

/-! ### Block independence -/

/-- From the invariants, a running engine with no block in flight and the count at 16 can open a block. -/
theorem exists_readyForBlock {s : State} (hinv : s.Inv) (he : s.status.err = false)
    (ha : s.status.blkActive = false) (hc : s.status.ksCnt = 16) : ∃ ks, s.ReadyForBlock ks := by
  obtain ⟨-, hu, hrk, -⟩ := hinv
  choose k hk using fun j => Option.ne_none_iff_exists'.1 (rk_ne_none hu hrk hc j)
  exact ⟨sixteen k, he, ha, hc, fun j => by rw [hk j, getElem_sixteen]⟩

/-- Settles O46: both states can open a block with the same keys, and then DOUT is Encrypt or Decrypt of DIN. -/
theorem blockResultDependsOnlyOnKeysAndDin : Obligations.BlockResultDependsOnlyOnKeysAndDin := by
  intro s s' hinv _ he he' ha ha' hc hc' htables hrk hdin
  obtain ⟨ks, h⟩ := exists_readyForBlock hinv he ha hc
  have h' : s'.ReadyForBlock ks := ⟨he', ha', hc', hrk ▸ h.keys⟩
  constructor
  · exact ⟨_, _, _, exec_encBlock_passes h, exec_encBlock_passes h', rfl, by rw [htables, hdin]; rfl⟩
  · exact ⟨_, _, _, exec_decBlock_passes h, exec_decBlock_passes h', rfl, by rw [htables, hdin]; rfl⟩

end Sys2Proof.Machine
end
